-- ==== Sys2Proof/Word.lean ====
section
/-! DEFINITION. The byte and the three condition flags: the data every other file is written over. -/

namespace Sys2Proof

/-- A byte: the width of every register, memory cell, operand and ALU value (R11, R14, R32; D1). -/
abbrev Byte := BitVec 8

/-- The flags register FL: equal, greater-than, less-than (R20), kept as three Booleans as R21 allows. -/
structure Flags where
  e : Bool
  g : Bool
  l : Bool
  deriving DecidableEq, Repr

end Sys2Proof
end

