-- ==== Sys2Proof/Config.lean ====
section
/-! DEFINITION. What an implementation fixes (R6): the opcode map and the two policies, as plain data. Their
default values stand in Decode.lean and Machine/Params.lean. The spec leaves no value free, so there is no opaque
constant here. -/

namespace Sys2Proof

/-- The twelve mnemonics of the instruction set, in the order of the table of R50. -/
inductive Mnemonic where
  | hlt | ldi | prn | mul | cmp | push | pop | call | ret | jmp | jeq | jne
  deriving DecidableEq, Repr

/-- The parameter `OPCODE_MAP` (R6, R50, R60): the opcode byte of each mnemonic. -/
structure OpcodeMap where
  hlt : Byte
  ldi : Byte
  prn : Byte
  mul : Byte
  cmp : Byte
  push : Byte
  pop : Byte
  call : Byte
  ret : Byte
  jmp : Byte
  jeq : Byte
  jne : Byte
  deriving DecidableEq, Repr

/-- The parameter `SP_RANGE_POLICY` (R6, R92; D6). -/
inductive SpRangePolicy where
  | fault | wrap
  deriving DecidableEq, Repr

/-- The parameter `UNKNOWN_OPCODE_POLICY` (R6, R53, R73; D19). -/
inductive UnknownOpcodePolicy where
  | fault | hang
  deriving DecidableEq, Repr

/-- The three parameters of which, with the state, the step is a function (R74). -/
structure Config where
  opcodeMap : OpcodeMap
  spRange : SpRangePolicy
  unknownOpcode : UnknownOpcodePolicy
  deriving DecidableEq, Repr

end Sys2Proof
end

