-- ==== Sys2Proof/Syntax.lean ====
section
/-! DEFINITION. The twelve instructions (R50), one constructor per row of the opcode table. -/

namespace Sys2Proof

/-- One instruction with its operand bytes as fetched. A register operand is the whole byte (R13, R51): bytes above
7 are illegal (`Instr.wf`), and the instruction's own check phase faults on them (R108). -/
inductive Instr where
  | hlt
  | ldi (a imm : Byte)
  | prn (a : Byte)
  | mul (a b : Byte)
  | cmp (a b : Byte)
  | push (a : Byte)
  | pop (a : Byte)
  | call (a : Byte)
  | ret
  | jmp (a : Byte)
  | jeq (a : Byte)
  | jne (a : Byte)
  deriving DecidableEq, Repr

end Sys2Proof
end

