-- ==== Sys2Proof/Decode.lean ====
section
/-! DEFINITION. The decoder, total on any bytes (R57), and after it the encoder, both over any opcode map; the
default map of R50; and the host's view of the decoder on one word of the opcode table. -/

namespace Sys2Proof

/-- The default `OPCODE_MAP`: the table of R50. UNVERIFIED, unsafe: the byte values are the spec's general knowledge
(D2, G3), not its source's (notes/assumptions/3.md). -/
def defaultOpcodeMap : OpcodeMap where
  hlt := 0x01
  ldi := 0x82
  prn := 0x47
  mul := 0xA2
  cmp := 0xA7
  push := 0x45
  pop := 0x46
  call := 0x50
  ret := 0x11
  jmp := 0x54
  jeq := 0x55
  jne := 0x56

/-- Every mnemonic, in the order of R50. -/
def allMnemonics : List Mnemonic :=
  [.hlt, .ldi, .prn, .mul, .cmp, .push, .pop, .call, .ret, .jmp, .jeq, .jne]

/-- The opcode byte a map gives a mnemonic. -/
def OpcodeMap.byteOf (map : OpcodeMap) : Mnemonic → Byte
  | .hlt => map.hlt
  | .ldi => map.ldi
  | .prn => map.prn
  | .mul => map.mul
  | .cmp => map.cmp
  | .push => map.push
  | .pop => map.pop
  | .call => map.call
  | .ret => map.ret
  | .jmp => map.jmp
  | .jeq => map.jeq
  | .jne => map.jne

/-- The opcode byte is matched whole against the map (R65; D3). DESIGN CHOICE: of two mnemonics with one byte the
first of R50's table is taken; R60 excludes such a map (notes/assumptions/17.md, unsafe only for such a map). -/
def OpcodeMap.lookup (map : OpcodeMap) (opc : Byte) : Option Mnemonic :=
  allMnemonics.find? fun m => map.byteOf m == opc

/-- The four formats of R47. -/
inductive Format where
  | n | r | rr | ri
  deriving DecidableEq, Repr

/-- The format of each mnemonic (R47, R50). -/
def Mnemonic.format : Mnemonic → Format
  | .hlt => .n
  | .ldi => .ri
  | .prn => .r
  | .mul => .rr
  | .cmp => .rr
  | .push => .r
  | .pop => .r
  | .call => .r
  | .ret => .n
  | .jmp => .r
  | .jeq => .r
  | .jne => .r

/-- The number of operand bytes of a format (R47). -/
def Format.arity : Format → Nat
  | .n => 0
  | .r => 1
  | .rr => 2
  | .ri => 2

/-- The number of operand bytes of a mnemonic (R49). -/
def Mnemonic.arity (m : Mnemonic) : Nat := m.format.arity

/-- The length of an instruction in bytes (R49). -/
def Mnemonic.length (m : Mnemonic) : Nat := 1 + m.arity

/-- What decoding a run of bytes gives: an instruction and the bytes after it, or a named rejection. -/
inductive Decoded where
  /-- One of the twelve instructions, and the bytes left over. -/
  | instr (i : Instr) (rest : List Byte)
  /-- There is no opcode byte to read. -/
  | noOpcode
  /-- The opcode byte is not in the map (R53). -/
  | unrecognized (opc : Byte)
  /-- Operand byte number `n` (1 or 2) is the first one missing (R66). -/
  | missingOperand (n : Nat)
  deriving DecidableEq, Repr

/-- Take the operand byte of a format R instruction. -/
def takeOne (mk : Byte → Instr) : List Byte → Decoded
  | [] => .missingOperand 1
  | a :: rest => .instr (mk a) rest

/-- Take the operand bytes of a format RR or RI instruction. -/
def takeTwo (mk : Byte → Byte → Instr) : List Byte → Decoded
  | [] => .missingOperand 1
  | [_] => .missingOperand 2
  | a :: b :: rest => .instr (mk a b) rest

/-- Operand fetch: exactly `arity` bytes are taken (R66; D14), the first after the opcode first (R46). -/
def decodeOperands : Mnemonic → List Byte → Decoded
  | .hlt, rest => .instr .hlt rest
  | .ldi, rest => takeTwo .ldi rest
  | .prn, rest => takeOne .prn rest
  | .mul, rest => takeTwo .mul rest
  | .cmp, rest => takeTwo .cmp rest
  | .push, rest => takeOne .push rest
  | .pop, rest => takeOne .pop rest
  | .call, rest => takeOne .call rest
  | .ret, rest => .instr .ret rest
  | .jmp, rest => takeOne .jmp rest
  | .jeq, rest => takeOne .jeq rest
  | .jne, rest => takeOne .jne rest

/-- The decoder: the opcode is recognized first, and only then are operands taken (R63, R65, R66, R107). -/
def decode (map : OpcodeMap) : List Byte → Decoded
  | [] => .noOpcode
  | opc :: rest =>
    match map.lookup opc with
    | none => .unrecognized opc
    | some m => decodeOperands m rest

/-- The mnemonic of an instruction. -/
def Instr.mnemonic : Instr → Mnemonic
  | .hlt => .hlt
  | .ldi _ _ => .ldi
  | .prn _ => .prn
  | .mul _ _ => .mul
  | .cmp _ _ => .cmp
  | .push _ => .push
  | .pop _ => .pop
  | .call _ => .call
  | .ret => .ret
  | .jmp _ => .jmp
  | .jeq _ => .jeq
  | .jne _ => .jne

/-- The operand bytes of an instruction, op1 first (R47). -/
def Instr.operands : Instr → List Byte
  | .hlt => []
  | .ldi a imm => [a, imm]
  | .prn a => [a]
  | .mul a b => [a, b]
  | .cmp a b => [a, b]
  | .push a => [a]
  | .pop a => [a]
  | .call a => [a]
  | .ret => []
  | .jmp a => [a]
  | .jeq a => [a]
  | .jne a => [a]

/-- The encoder: the opcode byte, then the operand bytes at rising addresses (R46, R47). -/
def encode (map : OpcodeMap) (i : Instr) : List Byte :=
  map.byteOf i.mnemonic :: i.operands

/-- The longest instruction has three bytes (R46). -/
abbrev maxLength : Nat := 3

/-- The bytes of an instruction whose bits the opcode table numbers from the first byte's bit 0 up: `nbits` of them
are given, those above are zero, up to the longest instruction. -/
def tableBytes (nbits w : Nat) : List Byte :=
  (List.range maxLength).map fun k => BitVec.ofNat 8 (w % 2 ^ nbits / 256 ^ k)

/-- The instruction the decoder reads from a word numbered as spec/opcode_table.json numbers it, under the default
map. -/
def decodeTableWord (nbits w : Nat) : Option Instr :=
  match decode defaultOpcodeMap (tableBytes nbits w) with
  | .instr i _ => some i
  | .noOpcode => none
  | .unrecognized _ => none
  | .missingOperand _ => none

end Sys2Proof
end

