-- ==== Sys2Proof/Machine/Params.lean ====
section
/-! DEFINITION. The parameter values of this hardware (R5, R6) and the reset values of its registers (R16, R19,
R23). -/

namespace Sys2Proof.Machine

/-- The highest address; `MEM_SIZE` is 256 cells (R5, R31). -/
abbrev topAddress : Nat := 255

/-- `SP_INDEX`: R7 is the stack pointer (R5, R12). -/
abbrev spIndex : Fin 8 := 7

/-- `SP_RESET` (R5, R16). -/
def spReset : Byte := 0xF4

/-- `GPR_RESET` for R0 to R6 (R6, R16). UNVERIFIED, unsafe: the spec's own decision D11
(notes/assumptions/1.md). -/
def gprReset : Byte := 0

/-- All eight registers after reset (R126). -/
def regsReset : Vector Byte 8 := (Vector.replicate 8 gprReset).set spIndex spReset

/-- `PC_RESET` (R5, R19). -/
def pcReset : Nat := 0

/-- `FL_RESET` (R6, R23). UNVERIFIED, unsafe: the spec's own decision D12 (notes/assumptions/2.md). -/
def flReset : Flags := ⟨false, false, false⟩

/-- What a memory cell that nothing has written reads as: `MEM_RESET` (R5, R31, R45). -/
abbrev unlistedByte : Byte := 0

/-- The default parameters of this hardware (R6): the map of R50 and both policies `fault`
(notes/assumptions/3.md, 11.md, 12.md). -/
def defaultConfig : Config where
  opcodeMap := defaultOpcodeMap
  spRange := .fault
  unknownOpcode := .fault

end Sys2Proof.Machine
end

