-- ==== Sys2Proof/Machine/State.lean ====
section
/-! DEFINITION. The machine's state as plain data, its stops, and the state after reset. -/

namespace Sys2Proof.Machine

/-- The run state (R24, R61). -/
inductive RunState where
  | running | halted | faulted
  deriving DecidableEq, Repr

/-- The kinds of fault the hardware records (R106). -/
inductive FaultKind where
  | unrecognizedOpcode
  | unsupportedAluOperation
  | registerIndexOutOfRange
  | memoryAddressOutOfRange
  deriving DecidableEq, Repr

/-- The fault record: kind, pc of the faulting instruction, detail (R25). -/
structure FaultRecord where
  kind : FaultKind
  fpc : Nat
  detail : Int
  deriving DecidableEq, Repr

/-- Memory: (address, byte) pairs, addresses strictly rising, no entry equal to `unlistedByte` (`memWf`). -/
abbrev Memory := List Host.Cell

/-- Everything the spec gives the machine: `(x[0..7], pc, FL, run, fault, mem[0..255], out)` (10_state.md), with the
level of the `reset` input (R62) and the parameters of the step (R74). -/
structure State where
  /-- x[0] to x[7] (R11); x[7] is SP (R12). -/
  regs : Vector Byte 8
  /-- The program counter, an integer from 0 to 256 that never wraps (R17, R18). -/
  pc : Nat
  /-- FL (R20). -/
  fl : Flags
  /-- The run state (R24). -/
  run : RunState
  /-- The fault record (R25). -/
  fault : Option FaultRecord
  /-- mem[0..255] (R30, R31). -/
  mem : Memory
  /-- The output stream, oldest byte first (R26). -/
  out : List Byte
  /-- The `reset` input as the host last drove it (R62, R128). DESIGN CHOICE, safe for steps, unsafe for the value of
  `run` while it is high: notes/assumptions/5.md. -/
  resetHigh : Bool
  /-- The three parameters (R6, R74); no step changes them. DESIGN CHOICE, safe: notes/assumptions/4.md. -/
  cfg : Config
  deriving DecidableEq, Repr

/-- Why a step does not happen. A fault of the HARDWARE (R106) is none of these: it is a next state whose run state
is `faulted` (R110). -/
inductive Fault where
  /-- Raised by `step` in HALTED, which has no step (R71). Safe: the spec gives no transition but reset. -/
  | noStepHalted
  /-- Raised by `step` in FAULTED, which has no step (R71). Safe: the spec gives no transition but reset. -/
  | noStepFaulted
  /-- Raised by `step` while `reset` is high: the core takes no step (R62). Safe: steps begin when it goes low. -/
  | heldInReset
  deriving DecidableEq, Repr

/-- Why an instruction has no meaning. -/
inductive Refusal where
  /-- Raised only by an arm of `exec` whose instruction is not modelled; no arm is. Safe: nothing is claimed. -/
  | notModelled (mnemonic : String)
  deriving DecidableEq, Repr

/-- What a meaning answers. -/
abbrev Result := Host.Outcome State Fault Refusal

/-- The machine right after reset, once `reset` is released and with no image loaded (R126). -/
def State.reset : State where
  regs := regsReset
  pc := pcReset
  fl := flReset
  run := .running
  fault := none
  mem := []
  out := []
  resetHigh := false
  cfg := defaultConfig

end Sys2Proof.Machine
end

