-- ==== Sys2Proof/Machine/Ops.lean ====
section
/-! DEFINITION. The named operations over memory, registers, pc, flags and output, and taking a fault: the one place
where each of them is decided. -/

namespace Sys2Proof.Machine

/-! Memory as a list of cells. -/

/-- The byte at an address; an unlisted address reads as `unlistedByte` (R31, R45). -/
def memGet : Memory → Nat → Byte
  | [], _ => unlistedByte
  | c :: m, a => if c.1 = a then c.2 else memGet m a

/-- Memory without an entry for an address. -/
def memDrop (m : Memory) (a : Nat) : Memory := m.filter fun c => decide (c.1 ≠ a)

/-- Put a cell in its place by address. -/
def memInsert : Memory → Nat → Byte → Memory
  | [], a, v => [(a, v)]
  | c :: m, a, v => if a < c.1 then (a, v) :: c :: m else c :: memInsert m a v

/-- Store a byte; storing `unlistedByte` removes the entry, so that equal memories are equal data (R32). -/
def memSet (m : Memory) (a : Nat) (v : Byte) : Memory :=
  if v = unlistedByte then memDrop m a else memInsert (memDrop m a) a v

/-- The canonical form: addresses strictly rising and at most 255 (R31), no entry equal to `unlistedByte`. -/
abbrev memWf (m : Memory) : Prop :=
  m.Pairwise (fun c d => c.1 < d.1) ∧ ∀ c ∈ m, c.1 ≤ topAddress ∧ c.2 ≠ unlistedByte

/-- The bytes at `a`, `a+1`, …, at most `n` of them and none above the highest address. -/
def bytesFrom (m : Memory) (a : Nat) : Nat → List Byte
  | 0 => []
  | n + 1 => if a ≤ topAddress then memGet m a :: bytesFrom m (a + 1) n else []

/-! Registers, pc, flags, output. -/

/-- Read a general register (R11). -/
def State.readReg (s : State) (r : Fin 8) : Byte := s.regs[r]

/-- Write a general register (R14). -/
def State.writeReg (s : State) (r : Fin 8) (v : Byte) : State := { s with regs := s.regs.set r v }

/-- SP is another name for x[7] (R12). -/
def State.sp (s : State) : Byte := s.readReg spIndex

/-- Write SP, that is x[7] (R12, R88). -/
def State.writeSp (s : State) (v : Byte) : State := s.writeReg spIndex v

/-- A sequential instruction adds its length to the pc, without wrap (R68, R69). -/
def State.advance (s : State) (n : Nat) : State := { s with pc := s.pc + n }

/-- A transfer sets the pc to a byte (R68, R97). -/
def State.jump (s : State) (target : Byte) : State := { s with pc := target.toNat }

/-- CMP replaces all three flags (R22, R83). -/
def State.setFl (s : State) (f : Flags) : State := { s with fl := f }

/-- `Emit(v)` (R90). -/
def State.emit (s : State) (v : Byte) : State := { s with out := s.out ++ [v] }

/-- The clean stop (R70). -/
def State.halt (s : State) : State := { s with run := .halted }

/-- Store a byte at an address already checked. -/
def State.storeByte (s : State) (a : Nat) (v : Byte) : State := { s with mem := memSet s.mem a v }

/-! Taking a fault. -/

/-- Fault entry: `run <- FAULTED`, `fault <- (k, pc, d)`, and no other write (R110, R113; D8). -/
def State.enterFault (s : State) (k : FaultKind) (d : Int) : State :=
  { s with run := .faulted, fault := some ⟨k, s.pc, d⟩ }

/-- `raise <Kind>(info)` (R7): the instruction ends with the fault taken. There is no return from it (R115). -/
def raise (k : FaultKind) (d : Int) (s : State) : Result := .next (s.enterFault k d)

/-! Range-checked memory accesses. `s` is the state before the instruction, so a fault found here leaves no trace
of it (R8, R110); `k` is the rest of the instruction. -/

/-- `check 0 <= addr <= 255 else raise MemoryAddressOutOfRange(addr)` (R34, R109; D4). The one negative address that
can arise is SPdec's -1, which is raised there (`spDec`, R92). -/
def checkAddress (addr : Nat) (s : State) (k : Nat → Result) : Result :=
  if addr ≤ topAddress then k addr else raise .memoryAddressOutOfRange addr s

/-- `MemRead(addr, 1)` (R34). -/
def memRead (addr : Nat) (s : State) (k : Byte → Result) : Result :=
  checkAddress addr s fun a => k (memGet s.mem a)

/-- `MemWrite(addr, 1, v)` (R34): the rest of the instruction runs on the state with the byte stored. -/
def memWrite (addr : Nat) (v : Byte) (s : State) (k : State → Result) : Result :=
  checkAddress addr s fun a => k (s.storeByte a v)

end Sys2Proof.Machine
end

