-- ==== Sys2Proof/Machine/Flags.lean ====
section
/-! DEFINITION. The ALU (R76 to R81): its operation selects, its two kinds of output, the flag computation, and how
the executor commits what the ALU gives. -/

namespace Sys2Proof.Machine

/-- The ALU's operation select. DESIGN CHOICE, safe: the spec numbers no select, so one that is none of ADD, MUL and
CMP carries a number of its own (notes/assumptions/14.md). -/
inductive AluSelect where
  | add | mul | cmp
  | other (sel : Nat)
  deriving DecidableEq, Repr

/-- What the ALU gives: a result byte, a new value of the flags, or its unsupported-operation error (R76, R80). -/
inductive AluOutput where
  | result (v : Byte)
  | flags (f : Flags)
  | unsupported (sel : Nat)
  deriving DecidableEq, Repr

/-- `(a + b) mod 256` (R77). No instruction selects it (R54). -/
def aluAdd (a b : Byte) : Byte := BitVec.ofNat 8 ((a.toNat + b.toNat) % 256)

/-- `(a * b) mod 256` (R78). -/
def aluMul (a b : Byte) : Byte := BitVec.ofNat 8 ((a.toNat * b.toNat) % 256)

/-- `(E, G, L) = (a = b, a > b, a < b)`, unsigned (R79). -/
def aluCmp (a b : Byte) : Flags where
  e := decide (a.toNat = b.toNat)
  g := decide (a.toNat > b.toNat)
  l := decide (a.toNat < b.toNat)

/-- The ALU (R76 to R80): it holds no state. -/
def alu : AluSelect → Byte → Byte → AluOutput
  | .add, a, b => .result (aluAdd a b)
  | .mul, a, b => .result (aluMul a b)
  | .cmp, a, b => .flags (aluCmp a b)
  | .other sel, _, _ => .unsupported sel

/-- The executor drives the ALU with two registers, both read before any write (R85), commits its output to x[a] or
to FL, and moves past the three bytes of the instruction (R68); the ALU's error is a fault (R111). -/
def runAlu (op : AluSelect) (a b : Fin 8) (s : State) : Result :=
  match alu op (s.readReg a) (s.readReg b) with
  | .result v => .next ((s.writeReg a v).advance 3)
  | .flags f => .next ((s.setFl f).advance 3)
  | .unsupported sel => raise .unsupportedAluOperation sel s

/-- FL as a byte, `0b00000LGE` (R21; D13): no instruction can observe it. -/
def flByte (f : Flags) : Byte := 0#5 ++ BitVec.ofBool f.l ++ BitVec.ofBool f.g ++ BitVec.ofBool f.e

end Sys2Proof.Machine
end

