-- ==== Sys2Proof/Machine/Operands.lean ====
section
/-! DEFINITION. The register operand form, and the stack pointer's arithmetic. The immediate form (R52) is its byte
and needs no operation. -/

namespace Sys2Proof.Machine

/-- `check op <= 7 else raise RegisterIndexOutOfRange(op)`: the whole byte is the index, with no masking
(R13, R51, R108). -/
def checkReg (op : Byte) (s : State) (k : Fin 8 → Result) : Result :=
  if h : op.toNat ≤ 7 then k ⟨op.toNat, Nat.lt_succ_of_le h⟩
  else raise .registerIndexOutOfRange op.toNat s

/-- `SPdec` (R92; D6): the new stack pointer, or the offending address -1. -/
def spDec (policy : SpRangePolicy) (sp : Byte) : Except Int Byte :=
  if sp = 0 then
    match policy with
    | .fault => .error (-1)
    | .wrap => .ok 255
  else .ok (sp - 1)

/-- `SPinc` (R92; D6): the new stack pointer, or the offending address 256. -/
def spInc (policy : SpRangePolicy) (sp : Byte) : Except Int Byte :=
  if sp = 255 then
    match policy with
    | .fault => .error 256
    | .wrap => .ok 0
  else .ok (sp + 1)

/-- Run on with the new stack pointer, or take the fault its range check found, in the check phase (R8, R92). -/
def checkSp (r : Except Int Byte) (s : State) (k : Byte → Result) : Result :=
  match r with
  | .error addr => raise .memoryAddressOutOfRange addr s
  | .ok sp => k sp

end Sys2Proof.Machine
end

