-- ==== Sys2Proof/Machine/AluInstr.lean ====
section
/-! DEFINITION. MUL and CMP (41_alu.md). -/

namespace Sys2Proof.Machine

/-- MUL (R82): op1 is checked before op2 (R112). -/
def execMul (op1 op2 : Byte) (s : State) : Result :=
  checkReg op1 s fun a => checkReg op2 s fun b => runAlu .mul a b s

/-- CMP (R83): the only instruction that writes FL (R22). -/
def execCmp (op1 op2 : Byte) (s : State) : Result :=
  checkReg op1 s fun a => checkReg op2 s fun b => runAlu .cmp a b s

end Sys2Proof.Machine
end

