-- ==== Sys2Proof/Machine/Halt.lean ====
section
/-! DEFINITION. HLT (40_execution_loop.md). -/

namespace Sys2Proof.Machine

/-- HLT (R70): the run state becomes HALTED and nothing else changes, the pc not even. -/
def execHlt (s : State) : Result := .next s.halt

end Sys2Proof.Machine
end

