-- ==== Sys2Proof/Machine/RegisterIO.lean ====
section
/-! DEFINITION. LDI and PRN (42_register_io.md). -/

namespace Sys2Proof.Machine

/-- LDI (R86): the immediate is never checked (R108) and is not extended (R52). -/
def execLdi (op1 imm : Byte) (s : State) : Result :=
  checkReg op1 s fun a => .next ((s.writeReg a imm).advance 3)

/-- PRN (R87, R90): the output port never stalls the core (R89). -/
def execPrn (op1 : Byte) (s : State) : Result :=
  checkReg op1 s fun a => .next ((s.emit (s.readReg a)).advance 2)

end Sys2Proof.Machine
end

