-- ==== Sys2Proof/Machine/Stack.lean ====
section
/-! DEFINITION. PUSH and POP (43_stack.md). -/

namespace Sys2Proof.Machine

/-- PUSH (R93). PUSH R7 stores the decremented SP, the document's written order (D25; notes/assumptions/10.md). -/
def execPush (op1 : Byte) (s : State) : Result :=
  checkReg op1 s fun a =>
    checkSp (spDec s.cfg.spRange s.sp) s fun sp' =>
      memWrite sp'.toNat (if a = spIndex then sp' else s.readReg a) s fun t =>
        .next ((t.writeSp sp').advance 2)

/-- POP (R94). POP R7 leaves the popped byte plus one in R7, the document's written order (D25;
notes/assumptions/10.md). The popped cell is not cleared. -/
def execPop (op1 : Byte) (s : State) : Result :=
  checkReg op1 s fun a =>
    memRead s.sp.toNat s fun v =>
      checkSp (spInc s.cfg.spRange (if a = spIndex then v else s.sp)) s fun sp' =>
        .next (((s.writeReg a v).writeSp sp').advance 2)

end Sys2Proof.Machine
end

