-- ==== Sys2Proof/Machine/Transfer.lean ====
section
/-! DEFINITION. CALL, RET, JMP, JEQ and JNE (44_control_transfer.md). -/

namespace Sys2Proof.Machine

/-- CALL (R98): SPdec is checked before the return address (R112). CALL R7 jumps to the decremented SP (D25;
notes/assumptions/10.md); a return address of 256 faults (D7; notes/assumptions/13.md). -/
def execCall (op1 : Byte) (s : State) : Result :=
  checkReg op1 s fun a =>
    checkSp (spDec s.cfg.spRange s.sp) s fun sp' =>
      checkAddress (s.pc + 2) s fun r =>
        memWrite sp'.toNat (BitVec.ofNat 8 r) s fun t =>
          .next ((t.writeSp sp').jump (if a = spIndex then sp' else s.readReg a))

/-- RET (R99): it returns to whatever byte is on top of the stack. -/
def execRet (s : State) : Result :=
  memRead s.sp.toNat s fun r =>
    checkSp (spInc s.cfg.spRange s.sp) s fun sp' =>
      .next ((s.writeSp sp').jump r)

/-- JMP (R100). -/
def execJmp (op1 : Byte) (s : State) : Result :=
  checkReg op1 s fun a => .next (s.jump (s.readReg a))

/-- JEQ (R101): the register operand is checked whether or not the jump is taken (D29; notes/assumptions/16.md). -/
def execJeq (op1 : Byte) (s : State) : Result :=
  checkReg op1 s fun a => if s.fl.e then .next (s.jump (s.readReg a)) else .next (s.advance 2)

/-- JNE (R102): the register operand is checked whether or not the jump is taken (D29; notes/assumptions/16.md). -/
def execJne (op1 : Byte) (s : State) : Result :=
  checkReg op1 s fun a => if s.fl.e then .next (s.advance 2) else .next (s.jump (s.readReg a))

end Sys2Proof.Machine
end

