-- ==== Sys2Proof/Machine/Fetch.lean ====
section
/-! DEFINITION. Fetch, decode and operand fetch of one step (R63 to R66), and what each of their failures does
(R107, R109, R73). -/

namespace Sys2Proof.Machine

/-- The bytes an instruction at the pc can have: those at pc, pc+1, pc+2 that exist (R46, R64, R66). Reading more
of them than the instruction uses has no effect (R37). -/
def State.window (s : State) : List Byte := bytesFrom s.mem s.pc maxLength

/-- Fetch and decode at the pc, from the current memory (R43, R64, R65, R66). -/
def State.fetch (s : State) : Decoded := decode s.cfg.opcodeMap s.window

/-- An unrecognized opcode: a fault, or under `hang` a step that changes nothing (R53, R73, R107; D19). -/
def unknownOpcode (opc : Byte) (s : State) : Result :=
  match s.cfg.unknownOpcode with
  | .fault => raise .unrecognizedOpcode opc.toNat s
  | .hang => .next s

/-- Run the instruction fetched by `run`, or take the fault the fetch found: the fetch address, the opcode, the first
missing operand byte (R63, R112 items 1 to 3). -/
def dispatchFetched (run : Instr → State → Result) (d : Decoded) (s : State) : Result :=
  match d with
  | .instr i _ => run i s
  | .noOpcode => raise .memoryAddressOutOfRange s.pc s
  | .unrecognized opc => unknownOpcode opc s
  | .missingOperand n => raise .memoryAddressOutOfRange (s.pc + n : Nat) s

/-- Store bytes at rising addresses from `a`, those at addresses that exist. -/
def placeBytes (m : Memory) (a : Nat) : List Byte → Memory
  | [] => m
  | b :: bs => placeBytes (if a ≤ topAddress then memSet m a b else m) (a + 1) bs

end Sys2Proof.Machine
end

