-- ==== Sys2Proof/Machine/Step.lean ====
section
/-! DEFINITION. The step: one whole instruction as one transition (R63). -/

namespace Sys2Proof.Machine

/-- One step. It needs `reset` low and the run state RUNNING (R62, R63); otherwise there is none (R71), and the model
answers a named stop (DEDUCED, safe: notes/assumptions/6.md). -/
def step (s : State) : Host.Outcome State Fault Refusal :=
  if s.resetHigh then .fault .heldInReset
  else
    match s.run with
    | .running => dispatchFetched exec s.fetch s
    | .halted => .fault .noStepHalted
    | .faulted => .fault .noStepFaulted

/-- `s` with the instruction whose bits are `w` stored where the next step fetches: at the pc, pc+1, pc+2, as a
loader would have placed it (notes/assumptions/18.md). -/
def State.withFetchWord (s : State) (nbits w : Nat) : State :=
  { s with mem := placeBytes s.mem s.pc (tableBytes nbits w) }

end Sys2Proof.Machine
end

