-- ==== Sys2Proof/Machine/HostPort.lean ====
section
/-! DEFINITION. What the outside world does to the core and sees of it: reset and load (R62, R126 to R131), the
output signals (R62, R106), and the trace values (R122). None of these is part of a step. -/

namespace Sys2Proof.Machine

/-! Inputs: moves of the host between steps. -/

/-- The state the core is held in while `reset` is high, before anything is loaded: the reset state (R62, R126,
R127), with the machine's own parameters. -/
def resetState (s : State) : State := { State.reset with resetHigh := true, cfg := s.cfg }

/-- The host drives the `reset` input. Raising it re-creates the reset state from any state (R127, R137); lowering
it lets steps begin (R62, R131); driving the level it already has changes nothing. -/
def setReset (level : Bool) (s : State) : State :=
  match level, s.resetHigh with
  | true, false => resetState s
  | true, true => s
  | false, _ => { s with resetHigh := false }

/-- One load of `load_we`/`load_addr`/`load_data`: effective only while `reset` is high (R62, R128; D18). -/
def hostLoad (addr data : Byte) (s : State) : State :=
  if s.resetHigh then s.storeByte addr.toNat data else s

/-- The loader appends bytes sequentially from address `a` (R128). -/
def loadFrom (a : Nat) : List Byte → State → State
  | [], s => s
  | b :: bs, s => loadFrom (a + 1) bs (hostLoad (BitVec.ofNat 8 a) b s)

/-- The order of boot (R131): raise `reset`, load the image at 0 to n-1, release `reset`. An image of more than 256
bytes is refused and the run does not start (R129; D18). -/
def boot (image : List Byte) (s : State) : Option State :=
  if image.length ≤ 256 then some (setReset false (loadFrom 0 image (setReset true (setReset false s)))) else none

/-! Outputs. -/

/-- `run_state` (R62). -/
def runStatePort (s : State) : BitVec 2 :=
  match s.run with
  | .running => 0
  | .halted => 1
  | .faulted => 2

/-- The code of a fault kind (R106; D10). -/
def faultCode : FaultKind → BitVec 3
  | .unrecognizedOpcode => 1
  | .unsupportedAluOperation => 2
  | .registerIndexOutOfRange => 3
  | .memoryAddressOutOfRange => 4

/-- `fault_kind` (R62, R106): 0 when there is no fault. -/
def faultKindPort (s : State) : BitVec 3 :=
  match s.fault with
  | none => 0
  | some r => faultCode r.kind

/-- `fault_pc`, valid only with a fault (R62): absent otherwise (notes/assumptions/15.md). -/
def faultPcPort (s : State) : Option (BitVec 9) := s.fault.map fun r => BitVec.ofNat 9 r.fpc

/-- `fault_detail`, ten bits signed, valid only with a fault (R62): absent otherwise
(notes/assumptions/15.md). -/
def faultDetailPort (s : State) : Option (BitVec 10) := s.fault.map fun r => BitVec.ofInt 10 r.detail

/-- `out_valid` and `out_data` of a step: the byte it appended to the output stream, if it did (R62, R90). -/
def outPort (before after : State) : Option Byte := (after.out.drop before.out.length).head?

/-- The values on `trace_*` at the start of a step (R122). A memory byte above address 255 is absent. -/
structure Trace where
  pc : Nat
  mem0 : Option Byte
  mem1 : Option Byte
  mem2 : Option Byte
  x : Vector Byte 8
  deriving DecidableEq, Repr

/-- The byte at an address, absent above 255; reading it is no fault (R122). -/
def traceByte (s : State) (a : Nat) : Option Byte := if a ≤ topAddress then some (memGet s.mem a) else none

/-- The trace values of a state (R122; D24). Reading them changes no state. -/
def tracePort (s : State) : Trace :=
  ⟨s.pc, traceByte s s.pc, traceByte s (s.pc + 1), traceByte s (s.pc + 2), s.regs⟩

end Sys2Proof.Machine
end

