-- ==== Sys2Proof/WellFormed.lean ====
section
/-! DEFINITION. Which instructions are legal (every register operand names one of R0 to R7), and which opcode maps
are (R60); and which registers an instruction uses (R15). -/

namespace Sys2Proof

/-- A register operand byte is legal when it is in [0,7] (R13, R51, R56). -/
def isRegIndex (op : Byte) : Bool := decide (op.toNat ≤ 7)

/-- The register operand bytes of an instruction, in the order they are checked (R112 item 4). LDI's immediate is
none of them (R108). -/
def Instr.regOperands : Instr → List Byte
  | .hlt => []
  | .ldi a _ => [a]
  | .prn a => [a]
  | .mul a b => [a, b]
  | .cmp a b => [a, b]
  | .push a => [a]
  | .pop a => [a]
  | .call a => [a]
  | .ret => []
  | .jmp a => [a]
  | .jeq a => [a]
  | .jne a => [a]

/-- An instruction is well formed when every register operand is in [0,7] (R13). -/
def Instr.wf (i : Instr) : Bool := i.regOperands.all isRegIndex

/-- The first illegal register operand byte, op1 before op2 (R112 item 4). -/
def Instr.firstBadReg (i : Instr) : Option Byte := i.regOperands.find? fun op => !isRegIndex op

/-- The registers an instruction may write, as numbers (R15). -/
def Instr.writesRegs : Instr → List Nat
  | .hlt => []
  | .ldi a _ => [a.toNat]
  | .prn _ => []
  | .mul a _ => [a.toNat]
  | .cmp _ _ => []
  | .push _ => [7]
  | .pop a => [a.toNat, 7]
  | .call _ => [7]
  | .ret => [7]
  | .jmp _ => []
  | .jeq _ => []
  | .jne _ => []

/-- The registers an instruction may read or write, as numbers (R15). -/
def Instr.usesRegs : Instr → List Nat
  | .hlt => []
  | .ldi a _ => [a.toNat]
  | .prn a => [a.toNat]
  | .mul a b => [a.toNat, b.toNat]
  | .cmp a b => [a.toNat, b.toNat]
  | .push a => [a.toNat, 7]
  | .pop a => [a.toNat, 7]
  | .call a => [a.toNat, 7]
  | .ret => [7]
  | .jmp a => [a.toNat]
  | .jeq a => [a.toNat]
  | .jne a => [a.toNat]

/-- The twelve bytes of an opcode map, in the order of R50. -/
def OpcodeMap.bytes (m : OpcodeMap) : List Byte :=
  [m.hlt, m.ldi, m.prn, m.mul, m.cmp, m.push, m.pop, m.call, m.ret, m.jmp, m.jeq, m.jne]

/-- A map is legal when its twelve bytes are distinct (R60). -/
abbrev OpcodeMap.Distinct (m : OpcodeMap) : Prop := m.bytes.Nodup

end Sys2Proof
end

