-- ==== Sys2Proof/Safety.lean ====
section
/-! DEFINITION. The terms claims are stated in: when the core takes a step, what stands at the pc, which register
operand a fault reports, and the invariant of the machine. -/

namespace Sys2Proof.Machine

/-- The core takes a step: `reset` is low and the run state is RUNNING (R62, R63). -/
abbrev State.Ready (s : State) : Prop := s.resetHigh = false ∧ s.run = .running

/-- The core is about to run the mnemonic whose opcode byte stands at the pc, under a map R60 allows. -/
abbrev State.AtOpcode (s : State) (m : Mnemonic) : Prop :=
  s.Ready ∧ s.cfg.opcodeMap.Distinct ∧ s.pc ≤ 255 ∧ memGet s.mem s.pc = s.cfg.opcodeMap.byteOf m

/-- The byte `n` places after the pc: op1 for 1, op2 for 2 (R7). -/
def State.operandByte (s : State) (n : Nat) : Byte := memGet s.mem (s.pc + n)

/-- The general register a legal operand byte names (R51). -/
def State.regAt (s : State) (op : Byte) : Byte := s.readReg (Fin.ofNat 8 op.toNat)

/-- `s` with x[r] replaced. -/
def State.withReg (s : State) (r : Nat) (v : Byte) : State := { s with regs := s.regs.setIfInBounds r v }

/-- The next state an outcome answers, if it answers one. -/
def nextState? : Result → Option State
  | .next s => some s
  | .fault _ => none
  | .refused _ => none

/-- An outcome with its next state changed by `f`. -/
def mapNext (f : State → State) : Result → Result
  | .next s => .next (f s)
  | .fault r => .fault r
  | .refused r => .refused r

/-- The instruction of a mnemonic whose operand bytes stand after the pc. -/
def State.instrAtPc (s : State) : Mnemonic → Instr
  | .hlt => .hlt
  | .ldi => .ldi (s.operandByte 1) (s.operandByte 2)
  | .prn => .prn (s.operandByte 1)
  | .mul => .mul (s.operandByte 1) (s.operandByte 2)
  | .cmp => .cmp (s.operandByte 1) (s.operandByte 2)
  | .push => .push (s.operandByte 1)
  | .pop => .pop (s.operandByte 1)
  | .call => .call (s.operandByte 1)
  | .ret => .ret
  | .jmp => .jmp (s.operandByte 1)
  | .jeq => .jeq (s.operandByte 1)
  | .jne => .jne (s.operandByte 1)

/-- How a mnemonic comes to run: with its opcode byte at the pc, the step faults with MemoryAddressOutOfRange(256)
when an operand byte of it would lie above address 255 (R66), and otherwise is that instruction's meaning on the
state, its operand bytes those after the pc (R46, R63). -/
def FetchesAs (m : Mnemonic) : Prop :=
  ∀ s : State, s.AtOpcode m →
    (255 < s.pc + m.arity → step s = .next (s.enterFault .memoryAddressOutOfRange 256)) ∧
    (s.pc + m.arity ≤ 255 → step s = exec (s.instrAtPc m) s)

/-- The checks of an instruction's own handler, in pseudocode order (R112 item 5): PUSH and CALL decrement SP, CALL
then checks its return address, POP and RET increment SP (POP R7 the popped byte, R94). -/
def State.handlerFault (s : State) : Instr → Option (FaultKind × Int)
  | .push _ => if s.cfg.spRange = .fault ∧ s.sp = 0 then some (.memoryAddressOutOfRange, -1) else none
  | .pop a =>
    if s.cfg.spRange = .fault ∧ (if a = 7 then memGet s.mem s.sp.toNat else s.sp) = 255 then
      some (.memoryAddressOutOfRange, 256)
    else none
  | .call _ =>
    if s.cfg.spRange = .fault ∧ s.sp = 0 then some (.memoryAddressOutOfRange, -1)
    else if 255 < s.pc + 2 then some (.memoryAddressOutOfRange, (s.pc + 2 : Nat))
    else none
  | .ret => if s.cfg.spRange = .fault ∧ s.sp = 255 then some (.memoryAddressOutOfRange, 256) else none
  | .hlt => none
  | .ldi _ _ => none
  | .prn _ => none
  | .mul _ _ => none
  | .cmp _ _ => none
  | .jmp _ => none
  | .jeq _ => none
  | .jne _ => none

/-- The fault an instruction takes once it is fetched: an illegal register operand first, then its handler's checks
(R112 items 4 and 5). -/
def State.executeFault (s : State) (i : Instr) : Option (FaultKind × Int) :=
  match i.firstBadReg with
  | some op => some (.registerIndexOutOfRange, op.toNat)
  | none => s.handlerFault i

/-- The fault the next step reports, by the whole list of R112: the first check that fails, or none. -/
def State.firstFault (s : State) : Option (FaultKind × Int) :=
  if 255 < s.pc then some (.memoryAddressOutOfRange, s.pc)
  else
    match s.cfg.opcodeMap.lookup (memGet s.mem s.pc) with
    | none =>
      match s.cfg.unknownOpcode with
      | .fault => some (.unrecognizedOpcode, (memGet s.mem s.pc).toNat)
      | .hang => none
    | some m =>
      if 255 < s.pc + m.arity then some (.memoryAddressOutOfRange, 256)
      else s.executeFault (s.instrAtPc m)

/-- At most one of E, G and L is set (R20: mutually exclusive; none before the first CMP). -/
abbrev flagsExclusive (f : Flags) : Prop :=
  f = ⟨false, false, false⟩ ∨ f = ⟨true, false, false⟩ ∨ f = ⟨false, true, false⟩ ∨ f = ⟨false, false, true⟩

/-- The details a fault record of each kind can hold (R106). No program reaches `unsupportedAluOperation` (R111). -/
def faultLegal (r : FaultRecord) : Bool :=
  match r.kind with
  | .unrecognizedOpcode => decide (0 ≤ r.detail ∧ r.detail ≤ 255)
  | .unsupportedAluOperation => false
  | .registerIndexOutOfRange => decide (8 ≤ r.detail ∧ r.detail ≤ 255)
  | .memoryAddressOutOfRange => decide (r.detail = -1 ∨ r.detail = 256)

/-- The run state and the fault record agree: a record exactly when FAULTED (R25), a legal one (R106), its pc the pc
the core stopped at (R110); HALTED at the address of the HLT (R70). -/
def runFaultAgree (s : State) : Bool :=
  match s.run, s.fault with
  | .running, none => true
  | .halted, none => decide (s.pc ≤ 255)
  | .faulted, some r => decide (r.fpc = s.pc) && faultLegal r
  | .running, some _ => false
  | .halted, some _ => false
  | .faulted, none => false

/-- The invariant of the machine: memory is canonical and within 0 to 255 (R31), the pc is 0 to 256 (R17, R69), the
flags are mutually exclusive (R20), run state and fault record agree (R25), the opcode map is legal (R60), and while
`reset` is high the core is held in the reset state (R62). That run is RUNNING while it is held there is the model's
choice (R126 gives RUNNING once `reset` is released). Mark: DESIGN CHOICE, unsafe for that value (log entry 5). -/
abbrev State.Inv (s : State) : Prop :=
  memWf s.mem ∧ s.pc ≤ 256 ∧ flagsExclusive s.fl ∧ runFaultAgree s = true ∧ s.cfg.opcodeMap.Distinct ∧
    (s.resetHigh = true → s = { State.reset with mem := s.mem, resetHigh := true, cfg := s.cfg })

end Sys2Proof.Machine
end

