-- ==== Sys2Proof/Certificates/Slice0/Obligations.lean ====
section
/-! DEFINITION. The statements for the provers, from the spec's numbered rules. A statement that rests on one of the
spec's own decisions (D<n>), inferences or general-knowledge items (G<n>), or on a choice of the model, says so in
its docstring. -/

open Sys2Proof Sys2Proof.Machine

/-! Encoding. -/

/-- The default opcode map is the table of R50 and nothing else is recognized (R53), ADD's byte 0xA0 not (R54); the
formats give the lengths of R49. The byte values are the spec's general knowledge (G3, D2; log entry 3). -/
def Obligations.DefaultMapIsTheTable : Prop :=
  (∀ b : Byte, defaultOpcodeMap.lookup b =
    if b = 0x01 then some .hlt else if b = 0x82 then some .ldi else if b = 0x47 then some .prn
    else if b = 0xA2 then some .mul else if b = 0xA7 then some .cmp else if b = 0x45 then some .push
    else if b = 0x46 then some .pop else if b = 0x50 then some .call else if b = 0x11 then some .ret
    else if b = 0x54 then some .jmp else if b = 0x55 then some .jeq else if b = 0x56 then some .jne else none) ∧
  defaultOpcodeMap.Distinct ∧
  (∀ m : Mnemonic, m.length =
    if m = .hlt ∨ m = .ret then 1 else if m = .ldi ∨ m = .mul ∨ m = .cmp then 3 else 2) ∧
  defaultOpcodeMap.lookup 0xA0 = none

/-- One word of each instruction, written out from R50's binary column and the formats of R47, decodes to the
instruction it stands for. The opcode bytes are G3's. -/
def Obligations.WordsOfTheSpecDecode : Prop :=
  decode defaultOpcodeMap [0b00000001] = .instr .hlt [] ∧
  decode defaultOpcodeMap [0b10000010, 0b00000101, 0b11111111] = .instr (.ldi 5 255) [] ∧
  decode defaultOpcodeMap [0b01000111, 0b00000111] = .instr (.prn 7) [] ∧
  decode defaultOpcodeMap [0b10100010, 0b00000000, 0b00000001] = .instr (.mul 0 1) [] ∧
  decode defaultOpcodeMap [0b10100111, 0b00000100, 0b00000011] = .instr (.cmp 4 3) [] ∧
  decode defaultOpcodeMap [0b01000101, 0b00000011] = .instr (.push 3) [] ∧
  decode defaultOpcodeMap [0b01000110, 0b00000100] = .instr (.pop 4) [] ∧
  decode defaultOpcodeMap [0b01010000, 0b00000001] = .instr (.call 1) [] ∧
  decode defaultOpcodeMap [0b00010001] = .instr .ret [] ∧
  decode defaultOpcodeMap [0b01010100, 0b00000010] = .instr (.jmp 2) [] ∧
  decode defaultOpcodeMap [0b01010101, 0b00000110] = .instr (.jeq 6) [] ∧
  decode defaultOpcodeMap [0b01010110, 0b00000011] = .instr (.jne 3) []

/-- Decoding the encoding of any instruction gives it back, with every operand byte at every value and whatever bytes
follow, under every opcode map R60 allows. -/
def Obligations.DecodeOfEncodeIsTheInstruction : Prop :=
  ∀ (map : OpcodeMap) (i : Instr) (rest : List Byte), map.Distinct →
    decode map (encode map i ++ rest) = .instr i rest

/-- What decodes to an instruction is that instruction's encoding and the bytes left over: no byte has two meanings
and no bit is ignored (R47, R56). -/
def Obligations.EncodeOfDecodeIsTheBytes : Prop :=
  ∀ (map : OpcodeMap) (bytes rest : List Byte) (i : Instr),
    decode map bytes = .instr i rest → encode map i ++ rest = bytes

/-- The decoder is total and each rejection has its one cause (R53, R57, R66): an opcode byte no mnemonic has is
unrecognized whatever follows it, and that is the only cause of it; otherwise the instruction decodes as soon as
`arity` operand bytes follow, and with fewer the first missing one is named. R57 is an inference the spec marks as
its own. -/
def Obligations.DecoderIsTotal : Prop :=
  ∀ (map : OpcodeMap) (opc : Byte) (rest : List Byte),
    (decode map (opc :: rest) = .unrecognized opc ↔ ∀ m, map.byteOf m ≠ opc) ∧
    (∀ m, map.lookup opc = some m → m.arity ≤ rest.length →
      ∃ i, i.mnemonic = m ∧ decode map (opc :: rest) = .instr i (rest.drop m.arity)) ∧
    (∀ m, map.lookup opc = some m → rest.length < m.arity →
      decode map (opc :: rest) = .missingOperand (rest.length + 1))

/-- Under the default map bits 7:6 of a recognized opcode are its operand count, bit 5 is set exactly for MUL and CMP
and bit 4 exactly for the five instructions that set the pc (R48, R49). R48 is the spec's general knowledge (G2) and
R49's arity equation an inference the spec marks as its own. -/
def Obligations.OpcodeFieldsDescribeTheMap : Prop :=
  ∀ (b : Byte) (m : Mnemonic), defaultOpcodeMap.lookup b = some m →
    (b >>> 6).toNat = m.arity ∧
    (b.getLsbD 5 = true ↔ m = .mul ∨ m = .cmp) ∧
    (b.getLsbD 4 = true ↔ m = .call ∨ m = .ret ∨ m = .jmp ∨ m = .jeq ∨ m = .jne)

/-! The step. -/

/-- A step runs the decoded instruction: when the bytes at the pc decode to i, the step is the meaning of i on the
very same state, and nothing is added around it (R63, R67). -/
def Obligations.StepRunsDecodedInstruction : Prop :=
  ∀ (s : State) (i : Instr) (rest : List Byte), s.Ready → s.fetch = .instr i rest → step s = exec i s

/-- With the encoding of an instruction in memory at the pc, all of it at addresses up to 255, the step is that
instruction's meaning (R46, R63, R64, R66), under every opcode map R60 allows. -/
def Obligations.StepRunsEncodedInstruction : Prop :=
  ∀ (s : State) (i : Instr), s.Ready → s.cfg.opcodeMap.Distinct →
    (∀ (k : Nat) (b : Byte), (encode s.cfg.opcodeMap i)[k]? = some b →
      s.pc + k ≤ 255 ∧ memGet s.mem (s.pc + k) = b) →
    step s = exec i s

/-- A fetch above address 255 faults with that address, and the faulting pc is that address (R64; the spec's
decision D4). -/
def Obligations.FetchAboveMemoryFaults : Prop :=
  ∀ s : State, s.Ready → 255 < s.pc →
    step s = .next { s with run := .faulted, fault := some ⟨.memoryAddressOutOfRange, s.pc, s.pc⟩ }

/-- Under the policy `fault`, a byte at pc that is not in the map raises UnrecognizedOpcode with that byte, whatever
bytes follow it, at address 255 as well: no operand byte is fetched. A recognized byte raises no such fault
(R107). -/
def Obligations.UnrecognizedOpcodeFaults : Prop :=
  (∀ s : State, s.Ready → s.cfg.unknownOpcode = .fault → s.pc ≤ 255 →
    (∀ m, s.cfg.opcodeMap.byteOf m ≠ memGet s.mem s.pc) →
    step s = .next
      { s with run := .faulted, fault := some ⟨.unrecognizedOpcode, s.pc, (memGet s.mem s.pc).toNat⟩ }) ∧
  (∀ (s t : State) (r : FaultRecord), step s = .next t → t.fault = some r → s.fault = none →
    r.kind = .unrecognizedOpcode →
    s.pc ≤ 255 ∧ s.cfg.unknownOpcode = .fault ∧ ∀ m, s.cfg.opcodeMap.byteOf m ≠ memGet s.mem s.pc)

/-- Under the policy `hang`, an unrecognized opcode is a step that writes nothing, so every number of steps leaves the
state as it is (R73; the spec's decision D19). -/
def Obligations.UnrecognizedOpcodeHangs : Prop :=
  ∀ (s : State) (n : Nat), s.Ready → s.cfg.unknownOpcode = .hang → s.pc ≤ 255 →
    (∀ m, s.cfg.opcodeMap.byteOf m ≠ memGet s.mem s.pc) →
    Host.Core.run Sys2Proof.core n s = .next s

/-- Exactly `arity` operand bytes are read (R66; the spec's decision D14): an instruction whose operand would lie
above address 255 faults with address 256; one that just fits runs, HLT and RET at address 255 with no operand byte at
all. -/
def Obligations.OperandFetchFollowsArity : Prop := ∀ m : Mnemonic, FetchesAs m

/-- HALTED, FAULTED and a core held in reset have no step (R62, R71). That the model answers this with a named stop
is the model's reading (log entry 6). -/
def Obligations.NoStepUnlessReady : Prop :=
  ∀ s : State,
    (s.resetHigh = true → step s = .fault .heldInReset) ∧
    (s.resetHigh = false → s.run = .halted → step s = .fault .noStepHalted) ∧
    (s.resetHigh = false → s.run = .faulted → step s = .fault .noStepFaulted)

/-- The step is total: a running core always answers a next state, and every instruction on every state does; no
instruction and no byte in memory stops the model (R57, R74). Totality of the decoder (R57) is an inference the spec
marks as its own. -/
def Obligations.EveryReadyStepAnswers : Prop :=
  (∀ s : State, s.Ready → ∃ t, step s = .next t) ∧ (∀ (i : Instr) (s : State), ∃ t, exec i s = .next t)

/-- A step reads the bytes memory holds now: a byte stored at pc, pc+1 or pc+2 is the byte the next fetch sees there
(R43; the spec's decision D21). -/
def Obligations.FetchSeesStoredBytes : Prop :=
  ∀ (s : State) (n : Nat) (v : Byte), n < 3 → s.pc + n ≤ 255 →
    (s.storeByte (s.pc + n) v).window[n]? = some v ∧
    ∀ k, k ≠ n → (s.storeByte (s.pc + n) v).window[k]? = s.window[k]?

/-! The instructions. Each statement gives the whole next state, so it is the completion statement of its instruction
too. -/

/-- HLT (R70): the run state becomes HALTED; pc, registers, flags, memory and output are unchanged; it halts at
address 255 too, having no operand. The default byte is G3's. -/
def Obligations.HltHaltsInPlace : Prop :=
  (∀ s : State, exec .hlt s = .next { s with run := .halted }) ∧
  FetchesAs .hlt ∧
  (∀ s : State, s.AtOpcode .hlt → step s = .next { s with run := .halted }) ∧
  defaultOpcodeMap.byteOf .hlt = 0x01 ∧ Mnemonic.hlt.format = .n

/-- LDI (R86): every immediate is loaded as it is, R7 included; an illegal register operand faults. The default byte
is G3's. -/
def Obligations.LdiLoadsImmediate : Prop :=
  (∀ (a imm : Byte) (s : State), a.toNat ≤ 7 →
    exec (.ldi a imm) s = .next { s.withReg a.toNat imm with pc := s.pc + 3 }) ∧
  (∀ (a imm : Byte) (s : State), 7 < a.toNat →
    exec (.ldi a imm) s = .next (s.enterFault .registerIndexOutOfRange a.toNat)) ∧
  FetchesAs .ldi ∧ defaultOpcodeMap.byteOf .ldi = 0x82 ∧ Mnemonic.ldi.format = .ri

/-- PRN (R87): one byte is appended to the output stream and shown on the output port; a faulting PRN emits nothing.
The default byte is G3's. -/
def Obligations.PrnEmitsRegister : Prop :=
  (∀ (a : Byte) (s : State), a.toNat ≤ 7 →
    exec (.prn a) s = .next { s with out := s.out ++ [s.regAt a], pc := s.pc + 2 } ∧
    outPort s { s with out := s.out ++ [s.regAt a], pc := s.pc + 2 } = some (s.regAt a)) ∧
  (∀ (a : Byte) (s : State), 7 < a.toNat →
    exec (.prn a) s = .next (s.enterFault .registerIndexOutOfRange a.toNat)) ∧
  FetchesAs .prn ∧ defaultOpcodeMap.byteOf .prn = 0x47 ∧ Mnemonic.prn.format = .r

/-- MUL (R82): x[a] becomes (x[a] * x[b]) mod 256, both read before the write; op1 is checked before op2. The default
byte is G3's. -/
def Obligations.MulStoresProduct : Prop :=
  (∀ (a b : Byte) (s : State), a.toNat ≤ 7 → b.toNat ≤ 7 →
    exec (.mul a b) s = .next
      { s.withReg a.toNat (BitVec.ofNat 8 (((s.regAt a).toNat * (s.regAt b).toNat) % 256)) with pc := s.pc + 3 }) ∧
  (∀ (a b : Byte) (s : State), 7 < a.toNat →
    exec (.mul a b) s = .next (s.enterFault .registerIndexOutOfRange a.toNat)) ∧
  (∀ (a b : Byte) (s : State), a.toNat ≤ 7 → 7 < b.toNat →
    exec (.mul a b) s = .next (s.enterFault .registerIndexOutOfRange b.toNat)) ∧
  FetchesAs .mul ∧ defaultOpcodeMap.byteOf .mul = 0xA2 ∧ Mnemonic.mul.format = .rr

/-- CMP (R83): all three flags are replaced by the unsigned comparison of x[a] and x[b], exactly one is set, and no
register changes. The default byte is G3's. -/
def Obligations.CmpSetsFlags : Prop :=
  (∀ (a b : Byte) (s : State), a.toNat ≤ 7 → b.toNat ≤ 7 →
    exec (.cmp a b) s = .next
      { s with
        fl := ⟨decide ((s.regAt a).toNat = (s.regAt b).toNat), decide ((s.regAt a).toNat > (s.regAt b).toNat),
               decide ((s.regAt a).toNat < (s.regAt b).toNat)⟩
        pc := s.pc + 3 }) ∧
  (∀ (a b : Byte) (s t : State), a.toNat ≤ 7 → b.toNat ≤ 7 → exec (.cmp a b) s = .next t →
    t.fl = ⟨true, false, false⟩ ∨ t.fl = ⟨false, true, false⟩ ∨ t.fl = ⟨false, false, true⟩) ∧
  (∀ (a b : Byte) (s : State), 7 < a.toNat →
    exec (.cmp a b) s = .next (s.enterFault .registerIndexOutOfRange a.toNat)) ∧
  (∀ (a b : Byte) (s : State), a.toNat ≤ 7 → 7 < b.toNat →
    exec (.cmp a b) s = .next (s.enterFault .registerIndexOutOfRange b.toNat)) ∧
  FetchesAs .cmp ∧ defaultOpcodeMap.byteOf .cmp = 0xA7 ∧ Mnemonic.cmp.format = .rr

/-- PUSH (R93): SP is decremented, and the byte is stored at the new SP. PUSH R7 stores the new SP (the spec's
decision D25). SP = 0 faults with address -1 under `fault` and stores at 255 under `wrap` (the spec's decision
D6). The default byte is G3's. -/
def Obligations.PushStoresBelowStack : Prop :=
  (∀ (a sp' : Byte) (s : State), a.toNat ≤ 7 →
    (s.sp ≠ 0 ∧ sp' = s.sp - 1 ∨ s.sp = 0 ∧ s.cfg.spRange = .wrap ∧ sp' = 255) →
    exec (.push a) s = .next
      { s.withReg 7 sp' with mem := memSet s.mem sp'.toNat (if a = 7 then sp' else s.regAt a), pc := s.pc + 2 }) ∧
  (∀ (a sp' : Byte) (s t : State), a.toNat ≤ 7 →
    (s.sp ≠ 0 ∧ sp' = s.sp - 1 ∨ s.sp = 0 ∧ s.cfg.spRange = .wrap ∧ sp' = 255) →
    exec (.push a) s = .next t →
    ∀ x, memGet t.mem x = if x = sp'.toNat then (if a = 7 then sp' else s.regAt a) else memGet s.mem x) ∧
  (∀ (a : Byte) (s : State), a.toNat ≤ 7 → s.sp = 0 → s.cfg.spRange = .fault →
    exec (.push a) s = .next (s.enterFault .memoryAddressOutOfRange (-1))) ∧
  (∀ (a : Byte) (s : State), 7 < a.toNat →
    exec (.push a) s = .next (s.enterFault .registerIndexOutOfRange a.toNat)) ∧
  FetchesAs .push ∧ defaultOpcodeMap.byteOf .push = 0x45 ∧ Mnemonic.push.format = .r

/-- POP of a register other than R7 (R94): the byte at SP goes to it and SP is incremented; memory is not written.
SP = 255 faults with address 256 under `fault` and gives SP = 0 under `wrap` (the spec's decision D6). The default
byte is G3's. -/
def Obligations.PopLoadsFromStack : Prop :=
  (∀ (a sp' : Byte) (s : State), a.toNat < 7 →
    (s.sp ≠ 255 ∧ sp' = s.sp + 1 ∨ s.sp = 255 ∧ s.cfg.spRange = .wrap ∧ sp' = 0) →
    exec (.pop a) s = .next
      { (s.withReg a.toNat (memGet s.mem s.sp.toNat)).withReg 7 sp' with pc := s.pc + 2 }) ∧
  (∀ (a : Byte) (s : State), a.toNat < 7 → s.sp = 255 → s.cfg.spRange = .fault →
    exec (.pop a) s = .next (s.enterFault .memoryAddressOutOfRange 256)) ∧
  (∀ (a : Byte) (s : State), 7 < a.toNat →
    exec (.pop a) s = .next (s.enterFault .registerIndexOutOfRange a.toNat)) ∧
  FetchesAs .pop ∧ defaultOpcodeMap.byteOf .pop = 0x46 ∧ Mnemonic.pop.format = .r

/-- POP R7 (R94): R7 ends as the popped byte plus one, the popped byte itself being overwritten; a popped byte of 255
faults with address 256 under `fault` and gives 0 under `wrap` (the spec's decisions D25 and D6). -/
def Obligations.PopIntoStackPointer : Prop :=
  (∀ (v sp' : Byte) (s : State), v = memGet s.mem s.sp.toNat →
    (v ≠ 255 ∧ sp' = v + 1 ∨ v = 255 ∧ s.cfg.spRange = .wrap ∧ sp' = 0) →
    exec (.pop 7) s = .next { s.withReg 7 sp' with pc := s.pc + 2 }) ∧
  (∀ s : State, memGet s.mem s.sp.toNat = 255 → s.cfg.spRange = .fault →
    exec (.pop 7) s = .next (s.enterFault .memoryAddressOutOfRange 256))

/-- CALL (R98): the return address pc + 2 is stored at the decremented SP, and the pc becomes x[a], or the new SP for
CALL R7 (the spec's decision D25). The stack check comes before the return-address check (D6, D7, D9). The default
byte is G3's. -/
def Obligations.CallPushesReturnAddress : Prop :=
  (∀ (a sp' : Byte) (s : State), a.toNat ≤ 7 → s.pc + 2 ≤ 255 →
    (s.sp ≠ 0 ∧ sp' = s.sp - 1 ∨ s.sp = 0 ∧ s.cfg.spRange = .wrap ∧ sp' = 255) →
    exec (.call a) s = .next
      { s.withReg 7 sp' with
        mem := memSet s.mem sp'.toNat (BitVec.ofNat 8 (s.pc + 2))
        pc := (if a = 7 then sp' else s.regAt a).toNat }) ∧
  (∀ (a sp' : Byte) (s t : State), a.toNat ≤ 7 → s.pc + 2 ≤ 255 →
    (s.sp ≠ 0 ∧ sp' = s.sp - 1 ∨ s.sp = 0 ∧ s.cfg.spRange = .wrap ∧ sp' = 255) →
    exec (.call a) s = .next t →
    (memGet t.mem sp'.toNat).toNat = s.pc + 2 ∧ ∀ x, x ≠ sp'.toNat → memGet t.mem x = memGet s.mem x) ∧
  (∀ (a : Byte) (s : State), a.toNat ≤ 7 → s.sp = 0 → s.cfg.spRange = .fault →
    exec (.call a) s = .next (s.enterFault .memoryAddressOutOfRange (-1))) ∧
  (∀ (a : Byte) (s : State), a.toNat ≤ 7 → (s.sp ≠ 0 ∨ s.cfg.spRange = .wrap) → 255 < s.pc + 2 →
    exec (.call a) s = .next (s.enterFault .memoryAddressOutOfRange (s.pc + 2 : Nat))) ∧
  (∀ (a : Byte) (s : State), 7 < a.toNat →
    exec (.call a) s = .next (s.enterFault .registerIndexOutOfRange a.toNat)) ∧
  FetchesAs .call ∧ defaultOpcodeMap.byteOf .call = 0x50 ∧ Mnemonic.call.format = .r

/-- RET (R99): the pc becomes the byte at SP, whoever put it there, and SP is incremented; it runs at address 255 too.
SP = 255 faults with address 256 under `fault` and gives SP = 0 under `wrap` (the spec's decision D6). The default
byte is G3's. -/
def Obligations.RetPopsThePc : Prop :=
  (∀ (sp' : Byte) (s : State),
    (s.sp ≠ 255 ∧ sp' = s.sp + 1 ∨ s.sp = 255 ∧ s.cfg.spRange = .wrap ∧ sp' = 0) →
    exec .ret s = .next { s.withReg 7 sp' with pc := (memGet s.mem s.sp.toNat).toNat }) ∧
  (∀ s : State, s.sp = 255 → s.cfg.spRange = .fault →
    exec .ret s = .next (s.enterFault .memoryAddressOutOfRange 256)) ∧
  FetchesAs .ret ∧ defaultOpcodeMap.byteOf .ret = 0x11 ∧ Mnemonic.ret.format = .n

/-- JMP (R100): the pc becomes x[a]; nothing else changes. The default byte is G3's. -/
def Obligations.JmpSetsThePc : Prop :=
  (∀ (a : Byte) (s : State), a.toNat ≤ 7 → exec (.jmp a) s = .next { s with pc := (s.regAt a).toNat }) ∧
  (∀ (a : Byte) (s : State), 7 < a.toNat →
    exec (.jmp a) s = .next (s.enterFault .registerIndexOutOfRange a.toNat)) ∧
  FetchesAs .jmp ∧ defaultOpcodeMap.byteOf .jmp = 0x54 ∧ Mnemonic.jmp.format = .r

/-- JEQ (R101): it jumps exactly when E is set, and falls through by 2 otherwise; the register operand is checked
whether or not the jump is taken (the spec's decision D29). The default byte is G3's. -/
def Obligations.JeqJumpsWhenEqual : Prop :=
  (∀ (a : Byte) (s : State), a.toNat ≤ 7 → s.fl.e = true →
    exec (.jeq a) s = .next { s with pc := (s.regAt a).toNat }) ∧
  (∀ (a : Byte) (s : State), a.toNat ≤ 7 → s.fl.e = false → exec (.jeq a) s = .next { s with pc := s.pc + 2 }) ∧
  (∀ (a : Byte) (s : State), 7 < a.toNat →
    exec (.jeq a) s = .next (s.enterFault .registerIndexOutOfRange a.toNat)) ∧
  FetchesAs .jeq ∧ defaultOpcodeMap.byteOf .jeq = 0x55 ∧ Mnemonic.jeq.format = .r

/-- JNE (R102): it jumps exactly when E is clear, and falls through by 2 otherwise; the register operand is checked
whether or not the jump is taken (the spec's decision D29). The default byte is G3's. -/
def Obligations.JneJumpsWhenNotEqual : Prop :=
  (∀ (a : Byte) (s : State), a.toNat ≤ 7 → s.fl.e = false →
    exec (.jne a) s = .next { s with pc := (s.regAt a).toNat }) ∧
  (∀ (a : Byte) (s : State), a.toNat ≤ 7 → s.fl.e = true → exec (.jne a) s = .next { s with pc := s.pc + 2 }) ∧
  (∀ (a : Byte) (s : State), 7 < a.toNat →
    exec (.jne a) s = .next (s.enterFault .registerIndexOutOfRange a.toNat)) ∧
  FetchesAs .jne ∧ defaultOpcodeMap.byteOf .jne = 0x56 ∧ Mnemonic.jne.format = .r

/-! Frames: what an instruction leaves unchanged whenever it answers a next state, a fault entry included. -/

/-- HLT, PRN, CMP, JMP, JEQ and JNE write no register and no byte of memory; only CMP writes FL; only PRN writes out;
the reset level and the parameters stay; the run state and the fault record change only by HLT (the run state) or by a
fault entry, which changes nothing else. -/
def Obligations.NonWriterFrame : Prop :=
  ∀ (i : Instr) (a b : Byte) (s t : State),
    (i = .hlt ∨ i = .prn a ∨ i = .cmp a b ∨ i = .jmp a ∨ i = .jeq a ∨ i = .jne a) → exec i s = .next t →
    (∀ r, t.readReg r = s.readReg r) ∧ (∀ x, memGet t.mem x = memGet s.mem x) ∧
    (i ≠ .cmp a b → t.fl = s.fl) ∧ (i ≠ .prn a → t.out = s.out) ∧
    t.resetHigh = s.resetHigh ∧ t.cfg = s.cfg ∧
    ((t.fault = s.fault ∧ (i ≠ .hlt → t.run = s.run)) ∨ ∃ k d, t = s.enterFault k d)

/-- LDI and MUL write no register but the one op1 names, no flag, no byte of memory and no output; the run state and
the fault record change only by a fault entry, which changes nothing else. -/
def Obligations.RegisterWriterFrame : Prop :=
  ∀ (i : Instr) (a b : Byte) (s t : State), (i = .ldi a b ∨ i = .mul a b) → exec i s = .next t →
    (∀ r : Fin 8, r.val ≠ a.toNat → t.readReg r = s.readReg r) ∧ (∀ x, memGet t.mem x = memGet s.mem x) ∧
    t.fl = s.fl ∧ t.out = s.out ∧ t.resetHigh = s.resetHigh ∧ t.cfg = s.cfg ∧
    ((t.run = s.run ∧ t.fault = s.fault) ∨ ∃ k d, t = s.enterFault k d)

/-- PUSH and CALL write no register but R7, no byte of memory but the one at the decremented SP (none at all where
the decrement faults), no flag and no output; the run state and the fault record change only by a fault entry, which
changes nothing else. -/
def Obligations.StackWriterFrame : Prop :=
  ∀ (i : Instr) (a : Byte) (s t : State), (i = .push a ∨ i = .call a) → exec i s = .next t →
    (∀ r : Fin 8, r ≠ 7 → t.readReg r = s.readReg r) ∧
    (∀ sp', spDec s.cfg.spRange s.sp = .ok sp' → ∀ x, x ≠ sp'.toNat → memGet t.mem x = memGet s.mem x) ∧
    (∀ addr, spDec s.cfg.spRange s.sp = .error addr → ∀ x, memGet t.mem x = memGet s.mem x) ∧
    t.fl = s.fl ∧ t.out = s.out ∧ t.resetHigh = s.resetHigh ∧ t.cfg = s.cfg ∧
    ((t.run = s.run ∧ t.fault = s.fault) ∨ ∃ k d, t = s.enterFault k d)

/-- POP writes no register but the one op1 names and R7, RET none but R7; neither writes a byte of memory (the popped
cell is not cleared, R94), a flag or output; the run state and the fault record change only by a fault entry, which
changes nothing else. -/
def Obligations.StackReaderFrame : Prop :=
  ∀ (i : Instr) (a : Byte) (s t : State), (i = .pop a ∨ i = .ret) → exec i s = .next t →
    (∀ r : Fin 8, r ≠ 7 → (i = .pop a → r.val ≠ a.toNat) → t.readReg r = s.readReg r) ∧
    (∀ x, memGet t.mem x = memGet s.mem x) ∧
    t.fl = s.fl ∧ t.out = s.out ∧ t.resetHigh = s.resetHigh ∧ t.cfg = s.cfg ∧
    ((t.run = s.run ∧ t.fault = s.fault) ∨ ∃ k d, t = s.enterFault k d)

/-! Whole-machine rules. -/

/-- FL is set only by CMP and read only by JEQ and JNE, which read only E (R22): CMP's result does not depend on the
old flags, every other instruction leaves FL as it was, none but CMP, JEQ and JNE depends on it, and JEQ and JNE behave
the same whatever G and L are. -/
def Obligations.FlagsWrittenByCmpReadByJumps : Prop :=
  (∀ (a b : Byte) (s : State) (f : Flags), a.toNat ≤ 7 → b.toNat ≤ 7 →
    exec (.cmp a b) (s.setFl f) = exec (.cmp a b) s) ∧
  (∀ (i : Instr) (s t : State), (∀ a b, i ≠ .cmp a b) → exec i s = .next t → t.fl = s.fl) ∧
  (∀ (i : Instr) (s : State) (f : Flags), (∀ a b, i ≠ .cmp a b) → (∀ a, i ≠ .jeq a) → (∀ a, i ≠ .jne a) →
    exec i (s.setFl f) = mapNext (fun t => t.setFl f) (exec i s)) ∧
  (∀ (a : Byte) (s : State) (f : Flags), f.e = s.fl.e →
    exec (.jeq a) (s.setFl f) = mapNext (fun t => t.setFl f) (exec (.jeq a) s) ∧
    exec (.jne a) (s.setFl f) = mapNext (fun t => t.setFl f) (exec (.jne a) s))

/-- The output stream is empty at reset; a step either leaves it as it was or is a PRN that appended the byte of its
register (R26). -/
def Obligations.OnlyPrnEmits : Prop :=
  State.reset.out = [] ∧
  (∀ (a : Byte) (s t : State), a.toNat ≤ 7 → exec (.prn a) s = .next t → t.out = s.out ++ [s.regAt a]) ∧
  (∀ s t : State, step s = .next t →
    t.out = s.out ∨ ∃ a rest, s.fetch = .instr (.prn a) rest ∧ a.toNat ≤ 7 ∧ t.out = s.out ++ [s.regAt a])

/-- Only PUSH and CALL write memory, one byte, at the new SP (the write rows of R33's table); every other step leaves
it exactly as it was. -/
def Obligations.OnlyPushAndCallWriteMemory : Prop :=
  ∀ s t : State, step s = .next t →
    t.mem = s.mem ∨
    ∃ a rest sp' v, (s.fetch = .instr (.push a) rest ∨ s.fetch = .instr (.call a) rest) ∧
      spDec s.cfg.spRange s.sp = .ok sp' ∧ t.sp = sp' ∧ t.mem = memSet s.mem sp'.toNat v

/-- Every register write is one the table of R15 lists (its column 'registers written'). -/
def Obligations.RegistersWrittenAreListed : Prop :=
  ∀ (i : Instr) (s t : State) (r : Fin 8), exec i s = .next t → t.readReg r ≠ s.readReg r → r.val ∈ i.writesRegs

/-- An instruction does not read a register the table of R15 does not list for it: changing such a register before
the instruction is changing it after, and nothing else. -/
def Obligations.UnlistedRegistersDoNotMatter : Prop :=
  ∀ (i : Instr) (s : State) (r : Fin 8) (v : Byte), r.val ∉ i.usesRegs →
    exec i (s.writeReg r v) = mapNext (fun t => t.writeReg r v) (exec i s)

/-- Faults are precise (R110, R113; the spec's decision D8): a step that ends FAULTED has made the two writes of fault
entry and no other, and has recorded the pc it started at. -/
def Obligations.FaultsArePrecise : Prop :=
  ∀ s t : State, step s = .next t → t.run = .faulted →
    ∃ k d, t = { s with run := .faulted, fault := some ⟨k, s.pc, d⟩ }

/-- The fault a step reports is the first failing check of R112's list, read off the state before the step
(`State.firstFault`), and a step faults exactly when one of those checks fails (the spec's decision D9; log
entry 9). A step without a fault leaves the record as it was. -/
def Obligations.FaultsFollowThePriorityList : Prop :=
  ∀ s : State, s.Ready →
    match s.firstFault with
    | some (k, d) => step s = .next (s.enterFault k d)
    | none => ∃ t, step s = .next t ∧ t.run ≠ .faulted ∧ t.fault = s.fault

/-- A register operand byte above 7 raises RegisterIndexOutOfRange with that byte, op1's before op2's, in every
instruction that has one; the LDI immediate is never checked, and a well-formed instruction never raises it (R108).
That op1 is the one reported where both are illegal is R112's item 4, the spec's decision D9 (log entry 9). -/
def Obligations.IllegalRegisterOperandFaults : Prop :=
  (∀ (i : Instr) (op : Byte) (s : State), i.firstBadReg = some op →
    exec i s = .next (s.enterFault .registerIndexOutOfRange op.toNat)) ∧
  (∀ i : Instr, i.firstBadReg = none ↔ i.wf = true) ∧
  (∀ (i : Instr) (s t : State) (r : FaultRecord), i.wf = true → exec i s = .next t → t.fault = some r →
    r.kind = .registerIndexOutOfRange → s.fault = some r)

/-- Which instruction can raise which fault once it is fetched (the table of R124, an inference the spec marks as its
own): HLT none; LDI, PRN, MUL, CMP, JMP, JEQ and JNE only an illegal register operand; PUSH also address -1; POP also
256; CALL also -1 and its return address 256; RET only 256. No instruction raises UnsupportedAluOperation (R111). -/
def Obligations.FaultTableOfTheInstructions : Prop :=
  ∀ (i : Instr) (s t : State) (k : FaultKind) (d : Int), s.pc + i.mnemonic.arity ≤ 255 → s.run ≠ .faulted →
    exec i s = .next t → t = s.enterFault k d →
    (k = .registerIndexOutOfRange ∧ 8 ≤ d ∧ d ≤ 255 ∧ i ≠ .hlt ∧ i ≠ .ret) ∨
    (k = .memoryAddressOutOfRange ∧ s.cfg.spRange = .fault ∧ d = -1 ∧ ∃ a, i = .push a ∨ i = .call a) ∨
    (k = .memoryAddressOutOfRange ∧ s.cfg.spRange = .fault ∧ d = 256 ∧ (i = .ret ∨ ∃ a, i = .pop a)) ∨
    (k = .memoryAddressOutOfRange ∧ s.pc = 254 ∧ d = 256 ∧ ∃ a, i = .call a)

/-! Invariants. -/

/-- Every step keeps the invariant: memory canonical and within 0 to 255 (R31), pc 0 to 256 (R17, R69), flags
mutually exclusive (R20), a legal fault record exactly when FAULTED (R25, R106), the opcode map legal (R60). The
held-in-reset part of `State.Inv`, with run = RUNNING there by the model's choice (log entry 5), says nothing after a
step: none is taken while reset is high. -/
def Obligations.StepKeepsTheInvariant : Prop :=
  ∀ s t : State, s.Inv → step s = .next t → t.Inv

/-- The reset state meets the invariant. -/
def Obligations.ResetMeetsTheInvariant : Prop := State.reset.Inv

/-- Everything the host may do to the core keeps the invariant, the held-in-reset part of it too (R62, R128). That run
is RUNNING while the core is held in reset, a part of it, is the model's choice (log entry 5): R126 gives RUNNING once
reset is released. -/
def Obligations.HostMovesKeepTheInvariant : Prop :=
  ∀ s : State, s.Inv →
    (∀ level, (setReset level s).Inv) ∧ (∀ addr data, (hostLoad addr data s).Inv) ∧
    (∀ image t, boot image s = some t → t.Inv)

/-! Stack and call laws. -/

/-- The round-trip law (R96, an inference the spec marks as its own): a PUSH that does not fault, and then a POP of the
same register, gives every register back its value, R7 too; the pushed byte stays in memory below the stack. -/
def Obligations.PushThenPopRoundTrips : Prop :=
  ∀ (a : Byte) (s t : State), a.toNat ≤ 7 → (s.sp ≠ 0 ∨ s.cfg.spRange = .wrap) → exec (.push a) s = .next t →
    ∃ u, exec (.pop a) t = .next u ∧ u.regs = s.regs ∧ u.mem = t.mem ∧ u.pc = s.pc + 4 ∧ u.run = s.run ∧
      memGet u.mem (s.sp - 1).toNat = if a = 7 then s.sp - 1 else s.regAt a

/-- The call/return law (R105, an inference the spec marks as its own): after a CALL that does not fault, a RET from
any state with the same SP and the same byte there returns to call site + 2 and gives SP back. -/
def Obligations.CallThenRetReturns : Prop :=
  ∀ (a : Byte) (s t u : State), a.toNat ≤ 7 → (s.sp ≠ 0 ∨ s.cfg.spRange = .wrap) → s.pc + 2 ≤ 255 →
    exec (.call a) s = .next t →
    u.cfg = s.cfg → u.sp = t.sp → memGet u.mem u.sp.toNat = memGet t.mem t.sp.toNat →
    ∃ v, exec .ret u = .next v ∧ v.pc = s.pc + 2 ∧ v.sp = s.sp

/-- Stack-pointer arithmetic under both policies (R92; the spec's decision D6). -/
def Obligations.StackPointerArithmetic : Prop :=
  (∀ (p : SpRangePolicy) (sp : Byte), sp ≠ 0 →
    ∃ r, spDec p sp = .ok r ∧ r.toNat + 1 = sp.toNat ∧ spInc p r = .ok sp) ∧
  (∀ (p : SpRangePolicy) (sp : Byte), sp ≠ 255 →
    ∃ r, spInc p sp = .ok r ∧ r.toNat = sp.toNat + 1 ∧ spDec p r = .ok sp) ∧
  spDec .fault 0 = .error (-1) ∧ spDec .wrap 0 = .ok 255 ∧
  spInc .fault 255 = .error 256 ∧ spInc .wrap 255 = .ok 0

/-! The ALU. -/

/-- ALU MUL: the product modulo 256, which is the low 8 bits of the 16-bit product (R78). -/
def Obligations.AluMulIsModulo256 : Prop :=
  ∀ a b : Byte, alu .mul a b = .result (BitVec.ofNat 8 ((a.toNat * b.toNat) % 256)) ∧
    alu .mul a b = .result ((a.setWidth 16 * b.setWidth 16).setWidth 8) ∧ alu .mul 16 16 = .result 0

/-- ALU ADD: the sum modulo 256 (R77; that no instruction selects it is the spec's decision D20). -/
def Obligations.AluAddIsModulo256 : Prop :=
  ∀ a b : Byte, ∃ v, alu .add a b = .result v ∧ v.toNat = (a.toNat + b.toNat) % 256 ∧ v = a + b

/-- ALU CMP: less-than, greater-than, equal by unsigned comparison, exactly one set (R79). -/
def Obligations.AluCmpSetsExactlyOne : Prop :=
  ∀ a b : Byte, ∃ f, alu .cmp a b = .flags f ∧
    (f.e = true ↔ a.toNat = b.toNat) ∧ (f.g = true ↔ a.toNat > b.toNat) ∧ (f.l = true ↔ a.toNat < b.toNat) ∧
    (f = ⟨true, false, false⟩ ∨ f = ⟨false, true, false⟩ ∨ f = ⟨false, false, true⟩) ∧
    alu .cmp 0 255 = .flags ⟨false, false, true⟩

/-- An ALU select other than ADD, MUL and CMP fails, and the executor would take UnsupportedAluOperation for it
(R80, R111); no step can: that is an inference the spec marks as its own. That such a select carries a number n, and
so that n is the fault's detail, is the model's choice (log entry 14): the spec makes the select the detail, and gives
the unsupported ones no number. -/
def Obligations.UnsupportedAluSelectFaults : Prop :=
  (∀ (n : Nat) (a b : Byte), alu (.other n) a b = .unsupported n) ∧
  (∀ (n : Nat) (a b : Fin 8) (s : State),
    runAlu (.other n) a b s = .next (s.enterFault .unsupportedAluOperation n)) ∧
  (∀ (s t : State) (r : FaultRecord), step s = .next t → t.fault = some r → r.kind = .unsupportedAluOperation →
    s.fault = some r)

/-- FL as a byte is 0b00000LGE (R21): E in bit 0, G in bit 1, L in bit 2, bits 7 to 3 zero. The layout is the spec's
general knowledge (G5, D13), and no instruction observes it. -/
def Obligations.FlagByteLayout : Prop :=
  ∀ f : Flags, (flByte f).getLsbD 0 = f.e ∧ (flByte f).getLsbD 1 = f.g ∧ (flByte f).getLsbD 2 = f.l ∧
    ∀ k, 3 ≤ k → (flByte f).getLsbD k = false

/-! Reset, load and the interface. -/

/-- The state after reset (R126): R7 = 0xF4, pc = 0, memory all 0, RUNNING, no fault, no output. R0 to R6 = 0 and FL
clear are the spec's decisions D11 and D12 (log entries 1 and 2); the level of the reset input and the parameters are
the model's fields (log entries 4 and 5). -/
def Obligations.ResetState : Prop :=
  State.reset.readReg 7 = 0xF4 ∧ State.reset.sp = 0xF4 ∧ (∀ r : Fin 8, r ≠ 7 → State.reset.readReg r = 0) ∧
  State.reset.pc = 0 ∧ State.reset.fl = ⟨false, false, false⟩ ∧ State.reset.run = .running ∧
  State.reset.fault = none ∧ (∀ x, memGet State.reset.mem x = 0) ∧ State.reset.out = [] ∧
  State.reset.resetHigh = false ∧ State.reset.cfg = ⟨defaultOpcodeMap, .fault, .fault⟩

/-- Raising reset re-creates the reset state from any state, HALTED and FAULTED too, and no other state survives
(R127, R137; the spec's decision D23); lowering it makes the core ready. That the parameters are kept (log entry 4),
and that run is already RUNNING while reset is high (log entry 5), where R126 says so only of a released reset, are the
model's choices. -/
def Obligations.ResetRestartsFromAnyState : Prop :=
  ∀ s : State, s.resetHigh = false →
    setReset true s = { State.reset with resetHigh := true, cfg := s.cfg } ∧
    setReset false (setReset true s) = { State.reset with cfg := s.cfg } ∧
    (setReset false (setReset true s)).Ready

/-- A load writes its byte at its address, and nothing else, while reset is high; while it is low it is ignored
(R128; the spec's decision D18). -/
def Obligations.LoadsOnlyWhileResetIsHigh : Prop :=
  ∀ (addr data : Byte) (s : State),
    (s.resetHigh = false → hostLoad addr data s = s) ∧
    (s.resetHigh = true →
      (∀ x, memGet (hostLoad addr data s).mem x = if x = addr.toNat then data else memGet s.mem x) ∧
      hostLoad addr data s = { s with mem := (hostLoad addr data s).mem })

/-- Boot (R45, R128, R129, R131): from any state, image byte k is at address k, every other cell is 0, the core is in
the reset state otherwise and ready to fetch at 0; a longer image is refused (the spec's decision D18). -/
def Obligations.BootPlacesTheImage : Prop :=
  (∀ (image : List Byte) (s : State), image.length ≤ 256 →
    ∃ t, boot image s = some t ∧ t.Ready ∧ (∀ k, memGet t.mem k = image.getD k 0) ∧
      t = { State.reset with mem := t.mem, cfg := s.cfg }) ∧
  (∀ (image : List Byte) (s : State), 256 < image.length → boot image s = none)

/-- An empty image is legal, and its first step raises UnrecognizedOpcode(0x00) under the default parameters (R129, an
inference the spec marks as its own; R45). -/
def Obligations.EmptyImageFaultsAtOnce : Prop :=
  ∀ s : State, s.cfg = defaultConfig →
    ∃ t, boot [] s = some t ∧ step t = .next (t.enterFault .unrecognizedOpcode 0)

/-- The output signals (R62, R106; the spec's decisions D10 and D16): the run-state and fault codes, and after a fault
entry the recorded pc and detail, whole, in 9 and 10 bits. -/
def Obligations.OutputSignals : Prop :=
  (∀ s : State, (s.run = .running → runStatePort s = 0) ∧ (s.run = .halted → runStatePort s = 1) ∧
    (s.run = .faulted → runStatePort s = 2)) ∧
  (∀ s : State, s.fault = none → faultKindPort s = 0) ∧
  faultCode .unrecognizedOpcode = 1 ∧ faultCode .unsupportedAluOperation = 2 ∧
  faultCode .registerIndexOutOfRange = 3 ∧ faultCode .memoryAddressOutOfRange = 4 ∧
  (∀ (s : State) (k : FaultKind) (d : Int), s.pc ≤ 256 → -1 ≤ d → d ≤ 256 →
    faultKindPort (s.enterFault k d) = faultCode k ∧
    (faultPcPort (s.enterFault k d)).map BitVec.toNat = some s.pc ∧
    (faultDetailPort (s.enterFault k d)).map BitVec.toInt = some d)

/-- The trace values of a state (R122; the spec's decision D24): the pc, the three bytes from it, each absent above
address 255, and the eight registers. -/
def Obligations.TraceShowsTheState : Prop :=
  ∀ s : State, (tracePort s).pc = s.pc ∧ (tracePort s).x = s.regs ∧
    (tracePort s).mem0 = (if s.pc ≤ 255 then some (memGet s.mem s.pc) else none) ∧
    (tracePort s).mem1 = (if s.pc + 1 ≤ 255 then some (memGet s.mem (s.pc + 1)) else none) ∧
    (tracePort s).mem2 = (if s.pc + 2 ≤ 255 then some (memGet s.mem (s.pc + 2)) else none)
end

