-- ==== Sys2Proof/Laws/Decode.lean ====
section
/-! SUPPORT. Recognizing an opcode byte: what the lookup finds, and that it finds every mnemonic of a legal map. -/

namespace Sys2Proof

theorem mem_allMnemonics (m : Mnemonic) : m ∈ allMnemonics := by cases m <;> simp [allMnemonics]

theorem bytes_eq_map (map : OpcodeMap) : map.bytes = allMnemonics.map map.byteOf := rfl

theorem byteOf_of_lookup {map : OpcodeMap} {opc : Byte} {m : Mnemonic} (h : map.lookup opc = some m) :
    map.byteOf m = opc := by
  simpa using List.find?_some h

theorem lookup_eq_none {map : OpcodeMap} {opc : Byte} : map.lookup opc = none ↔ ∀ m, map.byteOf m ≠ opc := by
  simp [OpcodeMap.lookup, List.find?_eq_none, mem_allMnemonics]

theorem byteOf_injective {map : OpcodeMap} (h : map.Distinct) {m n : Mnemonic} (e : map.byteOf m = map.byteOf n) :
    m = n :=
  List.inj_on_of_nodup_map (bytes_eq_map map ▸ h) (mem_allMnemonics m) (mem_allMnemonics n) e

/-- Under a map R60 allows, every mnemonic's byte is recognized as it (R65). -/
theorem lookup_byteOf {map : OpcodeMap} (h : map.Distinct) (m : Mnemonic) : map.lookup (map.byteOf m) = some m := by
  cases e : map.lookup (map.byteOf m) with
  | none => exact absurd rfl (lookup_eq_none.1 e m)
  | some n => rw [byteOf_injective h (byteOf_of_lookup e)]

end Sys2Proof
end

