-- ==== Sys2Proof/Laws/State.lean ====
section
/-! SUPPORT. One lemma per field per update of the state, each true by definition, so that no later proof unfolds an
update; and what reading a register gives after a write. -/

namespace Sys2Proof.Machine

/-! `State.writeReg` -/

@[simp] theorem State.writeReg_regs (s : State) (r : Fin 8) (v : Byte) : (s.writeReg r v).regs = s.regs.set r v := rfl
@[simp] theorem State.writeReg_pc (s : State) (r : Fin 8) (v : Byte) : (s.writeReg r v).pc = s.pc := rfl
@[simp] theorem State.writeReg_fl (s : State) (r : Fin 8) (v : Byte) : (s.writeReg r v).fl = s.fl := rfl
@[simp] theorem State.writeReg_run (s : State) (r : Fin 8) (v : Byte) : (s.writeReg r v).run = s.run := rfl
@[simp] theorem State.writeReg_fault (s : State) (r : Fin 8) (v : Byte) : (s.writeReg r v).fault = s.fault := rfl
@[simp] theorem State.writeReg_mem (s : State) (r : Fin 8) (v : Byte) : (s.writeReg r v).mem = s.mem := rfl
@[simp] theorem State.writeReg_out (s : State) (r : Fin 8) (v : Byte) : (s.writeReg r v).out = s.out := rfl
@[simp] theorem State.writeReg_resetHigh (s : State) (r : Fin 8) (v : Byte) : (s.writeReg r v).resetHigh = s.resetHigh := rfl
@[simp] theorem State.writeReg_cfg (s : State) (r : Fin 8) (v : Byte) : (s.writeReg r v).cfg = s.cfg := rfl

/-! `State.writeSp` -/

@[simp] theorem State.writeSp_regs (s : State) (v : Byte) : (s.writeSp v).regs = s.regs.set spIndex v := rfl
@[simp] theorem State.writeSp_pc (s : State) (v : Byte) : (s.writeSp v).pc = s.pc := rfl
@[simp] theorem State.writeSp_fl (s : State) (v : Byte) : (s.writeSp v).fl = s.fl := rfl
@[simp] theorem State.writeSp_run (s : State) (v : Byte) : (s.writeSp v).run = s.run := rfl
@[simp] theorem State.writeSp_fault (s : State) (v : Byte) : (s.writeSp v).fault = s.fault := rfl
@[simp] theorem State.writeSp_mem (s : State) (v : Byte) : (s.writeSp v).mem = s.mem := rfl
@[simp] theorem State.writeSp_out (s : State) (v : Byte) : (s.writeSp v).out = s.out := rfl
@[simp] theorem State.writeSp_resetHigh (s : State) (v : Byte) : (s.writeSp v).resetHigh = s.resetHigh := rfl
@[simp] theorem State.writeSp_cfg (s : State) (v : Byte) : (s.writeSp v).cfg = s.cfg := rfl

/-! `State.advance` -/

@[simp] theorem State.advance_regs (s : State) (n : Nat) : (s.advance n).regs = s.regs := rfl
@[simp] theorem State.advance_pc (s : State) (n : Nat) : (s.advance n).pc = s.pc + n := rfl
@[simp] theorem State.advance_fl (s : State) (n : Nat) : (s.advance n).fl = s.fl := rfl
@[simp] theorem State.advance_run (s : State) (n : Nat) : (s.advance n).run = s.run := rfl
@[simp] theorem State.advance_fault (s : State) (n : Nat) : (s.advance n).fault = s.fault := rfl
@[simp] theorem State.advance_mem (s : State) (n : Nat) : (s.advance n).mem = s.mem := rfl
@[simp] theorem State.advance_out (s : State) (n : Nat) : (s.advance n).out = s.out := rfl
@[simp] theorem State.advance_resetHigh (s : State) (n : Nat) : (s.advance n).resetHigh = s.resetHigh := rfl
@[simp] theorem State.advance_cfg (s : State) (n : Nat) : (s.advance n).cfg = s.cfg := rfl

/-! `State.jump` -/

@[simp] theorem State.jump_regs (s : State) (target : Byte) : (s.jump target).regs = s.regs := rfl
@[simp] theorem State.jump_pc (s : State) (target : Byte) : (s.jump target).pc = target.toNat := rfl
@[simp] theorem State.jump_fl (s : State) (target : Byte) : (s.jump target).fl = s.fl := rfl
@[simp] theorem State.jump_run (s : State) (target : Byte) : (s.jump target).run = s.run := rfl
@[simp] theorem State.jump_fault (s : State) (target : Byte) : (s.jump target).fault = s.fault := rfl
@[simp] theorem State.jump_mem (s : State) (target : Byte) : (s.jump target).mem = s.mem := rfl
@[simp] theorem State.jump_out (s : State) (target : Byte) : (s.jump target).out = s.out := rfl
@[simp] theorem State.jump_resetHigh (s : State) (target : Byte) : (s.jump target).resetHigh = s.resetHigh := rfl
@[simp] theorem State.jump_cfg (s : State) (target : Byte) : (s.jump target).cfg = s.cfg := rfl

/-! `State.setFl` -/

@[simp] theorem State.setFl_regs (s : State) (f : Flags) : (s.setFl f).regs = s.regs := rfl
@[simp] theorem State.setFl_pc (s : State) (f : Flags) : (s.setFl f).pc = s.pc := rfl
@[simp] theorem State.setFl_fl (s : State) (f : Flags) : (s.setFl f).fl = f := rfl
@[simp] theorem State.setFl_run (s : State) (f : Flags) : (s.setFl f).run = s.run := rfl
@[simp] theorem State.setFl_fault (s : State) (f : Flags) : (s.setFl f).fault = s.fault := rfl
@[simp] theorem State.setFl_mem (s : State) (f : Flags) : (s.setFl f).mem = s.mem := rfl
@[simp] theorem State.setFl_out (s : State) (f : Flags) : (s.setFl f).out = s.out := rfl
@[simp] theorem State.setFl_resetHigh (s : State) (f : Flags) : (s.setFl f).resetHigh = s.resetHigh := rfl
@[simp] theorem State.setFl_cfg (s : State) (f : Flags) : (s.setFl f).cfg = s.cfg := rfl

/-! `State.emit` -/

@[simp] theorem State.emit_regs (s : State) (v : Byte) : (s.emit v).regs = s.regs := rfl
@[simp] theorem State.emit_pc (s : State) (v : Byte) : (s.emit v).pc = s.pc := rfl
@[simp] theorem State.emit_fl (s : State) (v : Byte) : (s.emit v).fl = s.fl := rfl
@[simp] theorem State.emit_run (s : State) (v : Byte) : (s.emit v).run = s.run := rfl
@[simp] theorem State.emit_fault (s : State) (v : Byte) : (s.emit v).fault = s.fault := rfl
@[simp] theorem State.emit_mem (s : State) (v : Byte) : (s.emit v).mem = s.mem := rfl
@[simp] theorem State.emit_out (s : State) (v : Byte) : (s.emit v).out = s.out ++ [v] := rfl
@[simp] theorem State.emit_resetHigh (s : State) (v : Byte) : (s.emit v).resetHigh = s.resetHigh := rfl
@[simp] theorem State.emit_cfg (s : State) (v : Byte) : (s.emit v).cfg = s.cfg := rfl

/-! `State.halt` -/

@[simp] theorem State.halt_regs (s : State) : s.halt.regs = s.regs := rfl
@[simp] theorem State.halt_pc (s : State) : s.halt.pc = s.pc := rfl
@[simp] theorem State.halt_fl (s : State) : s.halt.fl = s.fl := rfl
@[simp] theorem State.halt_run (s : State) : s.halt.run = .halted := rfl
@[simp] theorem State.halt_fault (s : State) : s.halt.fault = s.fault := rfl
@[simp] theorem State.halt_mem (s : State) : s.halt.mem = s.mem := rfl
@[simp] theorem State.halt_out (s : State) : s.halt.out = s.out := rfl
@[simp] theorem State.halt_resetHigh (s : State) : s.halt.resetHigh = s.resetHigh := rfl
@[simp] theorem State.halt_cfg (s : State) : s.halt.cfg = s.cfg := rfl

/-! `State.storeByte` -/

@[simp] theorem State.storeByte_regs (s : State) (a : Nat) (v : Byte) : (s.storeByte a v).regs = s.regs := rfl
@[simp] theorem State.storeByte_pc (s : State) (a : Nat) (v : Byte) : (s.storeByte a v).pc = s.pc := rfl
@[simp] theorem State.storeByte_fl (s : State) (a : Nat) (v : Byte) : (s.storeByte a v).fl = s.fl := rfl
@[simp] theorem State.storeByte_run (s : State) (a : Nat) (v : Byte) : (s.storeByte a v).run = s.run := rfl
@[simp] theorem State.storeByte_fault (s : State) (a : Nat) (v : Byte) : (s.storeByte a v).fault = s.fault := rfl
@[simp] theorem State.storeByte_mem (s : State) (a : Nat) (v : Byte) : (s.storeByte a v).mem = memSet s.mem a v := rfl
@[simp] theorem State.storeByte_out (s : State) (a : Nat) (v : Byte) : (s.storeByte a v).out = s.out := rfl
@[simp] theorem State.storeByte_resetHigh (s : State) (a : Nat) (v : Byte) : (s.storeByte a v).resetHigh = s.resetHigh := rfl
@[simp] theorem State.storeByte_cfg (s : State) (a : Nat) (v : Byte) : (s.storeByte a v).cfg = s.cfg := rfl

/-! `State.enterFault` -/

@[simp] theorem State.enterFault_regs (s : State) (k : FaultKind) (d : Int) : (s.enterFault k d).regs = s.regs := rfl
@[simp] theorem State.enterFault_pc (s : State) (k : FaultKind) (d : Int) : (s.enterFault k d).pc = s.pc := rfl
@[simp] theorem State.enterFault_fl (s : State) (k : FaultKind) (d : Int) : (s.enterFault k d).fl = s.fl := rfl
@[simp] theorem State.enterFault_run (s : State) (k : FaultKind) (d : Int) : (s.enterFault k d).run = .faulted := rfl
@[simp] theorem State.enterFault_fault (s : State) (k : FaultKind) (d : Int) : (s.enterFault k d).fault = some ⟨k, s.pc, d⟩ := rfl
@[simp] theorem State.enterFault_mem (s : State) (k : FaultKind) (d : Int) : (s.enterFault k d).mem = s.mem := rfl
@[simp] theorem State.enterFault_out (s : State) (k : FaultKind) (d : Int) : (s.enterFault k d).out = s.out := rfl
@[simp] theorem State.enterFault_resetHigh (s : State) (k : FaultKind) (d : Int) : (s.enterFault k d).resetHigh = s.resetHigh := rfl
@[simp] theorem State.enterFault_cfg (s : State) (k : FaultKind) (d : Int) : (s.enterFault k d).cfg = s.cfg := rfl

/-! Reading registers. -/

@[simp] theorem State.readReg_advance (s : State) (n : Nat) (r : Fin 8) : (s.advance n).readReg r = s.readReg r := rfl
@[simp] theorem State.readReg_jump (s : State) (v : Byte) (r : Fin 8) : (s.jump v).readReg r = s.readReg r := rfl
@[simp] theorem State.readReg_setFl (s : State) (f : Flags) (r : Fin 8) : (s.setFl f).readReg r = s.readReg r := rfl
@[simp] theorem State.readReg_emit (s : State) (v : Byte) (r : Fin 8) : (s.emit v).readReg r = s.readReg r := rfl
@[simp] theorem State.readReg_halt (s : State) (r : Fin 8) : s.halt.readReg r = s.readReg r := rfl
@[simp] theorem State.readReg_storeByte (s : State) (a : Nat) (v : Byte) (r : Fin 8) :
    (s.storeByte a v).readReg r = s.readReg r := rfl
@[simp] theorem State.readReg_enterFault (s : State) (k : FaultKind) (d : Int) (r : Fin 8) :
    (s.enterFault k d).readReg r = s.readReg r := rfl

theorem State.readReg_writeReg (s : State) (r q : Fin 8) (v : Byte) :
    (s.writeReg r v).readReg q = if r = q then v else s.readReg q := by
  simp [State.readReg, State.writeReg, Vector.getElem_set, Fin.ext_iff]

@[simp] theorem State.readReg_writeReg_self (s : State) (r : Fin 8) (v : Byte) :
    (s.writeReg r v).readReg r = v := by
  simp [State.readReg_writeReg]

theorem State.readReg_writeReg_ne (s : State) {r q : Fin 8} (v : Byte) (h : r ≠ q) :
    (s.writeReg r v).readReg q = s.readReg q := by
  simp [State.readReg_writeReg, h]

/-- Writes to two different registers commute. -/
theorem State.writeReg_comm (s : State) {r q : Fin 8} (v w : Byte) (h : r ≠ q) :
    (s.writeReg r v).writeReg q w = (s.writeReg q w).writeReg r v := by
  simp only [State.writeReg]
  congr 1
  exact Vector.set_comm _ _ (by simpa [Fin.ext_iff] using h)

/-- Two states with the same registers, read one by one, have the same register file. -/
theorem State.regs_ext {s t : State} (h : ∀ r, s.readReg r = t.readReg r) : s.regs = t.regs :=
  Vector.ext fun i hi => h ⟨i, hi⟩

/-- SP is one register with two names (R12). -/
theorem State.writeSp_eq_writeReg (s : State) (v : Byte) : s.writeSp v = s.writeReg spIndex v := rfl

@[simp] theorem State.readReg_writeSp (s : State) (v : Byte) (q : Fin 8) :
    (s.writeSp v).readReg q = if spIndex = q then v else s.readReg q :=
  s.readReg_writeReg spIndex q v

@[simp] theorem State.sp_advance (s : State) (n : Nat) : (s.advance n).sp = s.sp := rfl
@[simp] theorem State.sp_jump (s : State) (v : Byte) : (s.jump v).sp = s.sp := rfl
@[simp] theorem State.sp_storeByte (s : State) (a : Nat) (v : Byte) : (s.storeByte a v).sp = s.sp := rfl
@[simp] theorem State.sp_setFl (s : State) (f : Flags) : (s.setFl f).sp = s.sp := rfl
@[simp] theorem State.sp_emit (s : State) (v : Byte) : (s.emit v).sp = s.sp := rfl
@[simp] theorem State.sp_enterFault (s : State) (k : FaultKind) (d : Int) : (s.enterFault k d).sp = s.sp := rfl

@[simp] theorem State.sp_writeSp (s : State) (v : Byte) : (s.writeSp v).sp = v := by
  simp [State.sp, State.writeSp]

end Sys2Proof.Machine
end

