-- ==== Sys2Proof/Laws/Ops.lean ====
section
/-! SUPPORT. For each shared operation, once: what it does when its check passes, what it does when it fails, and
everything it can do. -/

namespace Sys2Proof.Machine

theorem topAddress_eq : topAddress = 255 := rfl

/-! Taking a fault. -/

theorem raise_eq (k : FaultKind) (d : Int) (s : State) : raise k d s = .next (s.enterFault k d) := rfl

theorem raise_eq_next {k : FaultKind} {d : Int} {s t : State} : raise k d s = .next t ↔ t = s.enterFault k d := by
  simp [raise, eq_comm]

/-! Range-checked addresses. -/

theorem checkAddress_ok {addr : Nat} {s : State} {k : Nat → Result} (h : addr ≤ 255) :
    checkAddress addr s k = k addr := if_pos h

theorem checkAddress_bad {addr : Nat} {s : State} {k : Nat → Result} (h : 255 < addr) :
    checkAddress addr s k = .next (s.enterFault .memoryAddressOutOfRange addr) := if_neg (Nat.not_le.2 h)

theorem checkAddress_next {addr : Nat} {s t : State} {k : Nat → Result} (h : checkAddress addr s k = .next t) :
    (addr ≤ 255 ∧ k addr = .next t) ∨ (255 < addr ∧ t = s.enterFault .memoryAddressOutOfRange addr) := by
  by_cases ha : addr ≤ 255
  · rw [checkAddress_ok ha] at h
    exact .inl ⟨ha, h⟩
  · rw [checkAddress_bad (by omega)] at h
    exact .inr ⟨by omega, by simpa [eq_comm] using h⟩

theorem byte_inRange (b : Byte) : b.toNat ≤ 255 := by
  have := b.isLt
  omega

/-- A byte is always an address (R97): reading there cannot fault. -/
@[simp] theorem memRead_byte (b : Byte) (s : State) (k : Byte → Result) :
    memRead b.toNat s k = k (memGet s.mem b.toNat) :=
  checkAddress_ok (byte_inRange b)

/-- A byte is always an address: storing there cannot fault (R93). -/
@[simp] theorem memWrite_byte (b v : Byte) (s : State) (k : State → Result) :
    memWrite b.toNat v s k = k (s.storeByte b.toNat v) :=
  checkAddress_ok (byte_inRange b)

/-! Register operands. -/

theorem checkReg_ok {op : Byte} {s : State} {k : Fin 8 → Result} (h : op.toNat ≤ 7) :
    checkReg op s k = k ⟨op.toNat, Nat.lt_succ_of_le h⟩ := by
  simp [checkReg, h]

theorem checkReg_bad {op : Byte} {s : State} {k : Fin 8 → Result} (h : 7 < op.toNat) :
    checkReg op s k = .next (s.enterFault .registerIndexOutOfRange op.toNat) := by
  simp [checkReg, Nat.not_le.2 h, raise]

theorem checkReg_next {op : Byte} {s t : State} {k : Fin 8 → Result} (h : checkReg op s k = .next t) :
    (∃ r : Fin 8, r.val = op.toNat ∧ k r = .next t) ∨
      (7 < op.toNat ∧ t = s.enterFault .registerIndexOutOfRange op.toNat) := by
  by_cases ho : op.toNat ≤ 7
  · rw [checkReg_ok ho] at h
    exact .inl ⟨_, rfl, h⟩
  · rw [checkReg_bad (by omega)] at h
    exact .inr ⟨by omega, by simpa [eq_comm] using h⟩

/-! The stack pointer. -/

theorem spDec_ok (policy : SpRangePolicy) {sp : Byte} (h : sp ≠ 0) : spDec policy sp = .ok (sp - 1) := if_neg h

theorem spInc_ok (policy : SpRangePolicy) {sp : Byte} (h : sp ≠ 255) : spInc policy sp = .ok (sp + 1) := if_neg h

/-- The only address a decrement can fault with is -1. -/
theorem spDec_error {policy : SpRangePolicy} {sp : Byte} {addr : Int} (h : spDec policy sp = .error addr) :
    addr = -1 ∧ sp = 0 ∧ policy = .fault := by
  unfold spDec at h
  cases policy <;> split at h <;> simp_all

/-- Incrementing undoes a decrement that did not fault, under either policy. -/
theorem spInc_of_spDec {policy : SpRangePolicy} {sp sp' : Byte} (h : spDec policy sp = .ok sp') :
    spInc policy sp' = .ok sp ∧ sp' = sp - 1 := by
  unfold spDec at h
  split at h
  · next h0 =>
    subst h0
    cases policy <;> simp at h
    subst h
    decide
  · next h0 =>
    cases h
    refine ⟨?_, rfl⟩
    rw [spInc_ok]
    · simp
    · revert sp
      decide

/-- The only address an increment can fault with is 256. -/
theorem spInc_error {policy : SpRangePolicy} {sp : Byte} {addr : Int} (h : spInc policy sp = .error addr) :
    addr = 256 ∧ sp = 255 ∧ policy = .fault := by
  unfold spInc at h
  cases policy <;> split at h <;> simp_all

@[simp] theorem checkSp_ok (sp : Byte) (s : State) (k : Byte → Result) : checkSp (.ok sp) s k = k sp := rfl

@[simp] theorem checkSp_error (addr : Int) (s : State) (k : Byte → Result) :
    checkSp (.error addr) s k = .next (s.enterFault .memoryAddressOutOfRange addr) := rfl

theorem checkSp_next {r : Except Int Byte} {s t : State} {k : Byte → Result} (h : checkSp r s k = .next t) :
    (∃ sp, r = .ok sp ∧ k sp = .next t) ∨
      (∃ addr, r = .error addr ∧ t = s.enterFault .memoryAddressOutOfRange addr) := by
  cases r with
  | ok sp => exact .inl ⟨sp, rfl, h⟩
  | error addr => exact .inr ⟨addr, rfl, by simpa [eq_comm] using h⟩

/-! The ALU. -/

/-- A comparison sets exactly one flag (R79). -/
theorem aluCmp_cases (a b : Byte) :
    aluCmp a b = ⟨true, false, false⟩ ∨ aluCmp a b = ⟨false, true, false⟩ ∨ aluCmp a b = ⟨false, false, true⟩ := by
  rcases Nat.lt_trichotomy a.toNat b.toNat with h | h | h <;> simp [aluCmp] <;> omega

@[simp] theorem runAlu_mul (a b : Fin 8) (s : State) :
    runAlu .mul a b s = .next ((s.writeReg a (aluMul (s.readReg a) (s.readReg b))).advance 3) := rfl

@[simp] theorem runAlu_cmp (a b : Fin 8) (s : State) :
    runAlu .cmp a b s = .next ((s.setFl (aluCmp (s.readReg a) (s.readReg b))).advance 3) := rfl

end Sys2Proof.Machine
end

