-- ==== Sys2Proof/Laws/Exec.lean ====
section
/-! SUPPORT. For each instruction, everything it can do when it answers a next state: its effect, or the fault of one
of its checks. -/

namespace Sys2Proof.Machine

/-- `t` is `s` with the fault of an illegal register operand taken. -/
abbrev RegFault (op : Byte) (s t : State) : Prop :=
  7 < op.toNat ∧ t = s.enterFault .registerIndexOutOfRange op.toNat

theorem execHlt_next {s t : State} (h : exec .hlt s = .next t) : t = s.halt := by
  simpa [exec, execHlt, eq_comm] using h

theorem execLdi_next {a imm : Byte} {s t : State} (h : exec (.ldi a imm) s = .next t) :
    (∃ r : Fin 8, r.val = a.toNat ∧ t = (s.writeReg r imm).advance 3) ∨ RegFault a s t := by
  refine (checkReg_next (by simpa only [exec, execLdi] using h)).imp_left ?_
  rintro ⟨r, hr, e⟩
  exact ⟨r, hr, by simpa [eq_comm] using e⟩

theorem execPrn_next {a : Byte} {s t : State} (h : exec (.prn a) s = .next t) :
    (∃ r : Fin 8, r.val = a.toNat ∧ t = (s.emit (s.readReg r)).advance 2) ∨ RegFault a s t := by
  refine (checkReg_next (by simpa only [exec, execPrn] using h)).imp_left ?_
  rintro ⟨r, hr, e⟩
  exact ⟨r, hr, by simpa [eq_comm] using e⟩

theorem execMul_next {a b : Byte} {s t : State} (h : exec (.mul a b) s = .next t) :
    (∃ r q : Fin 8, r.val = a.toNat ∧ q.val = b.toNat ∧
      t = (s.writeReg r (aluMul (s.readReg r) (s.readReg q))).advance 3) ∨
      RegFault a s t ∨ (a.toNat ≤ 7 ∧ RegFault b s t) := by
  rcases checkReg_next (by simpa only [exec, execMul] using h) with ⟨r, hr, e⟩ | hf
  · rcases checkReg_next e with ⟨q, hq, e⟩ | hf
    · exact .inl ⟨r, q, hr, hq, by simpa [eq_comm] using e⟩
    · exact .inr (.inr ⟨by omega, hf⟩)
  · exact .inr (.inl hf)

theorem execCmp_next {a b : Byte} {s t : State} (h : exec (.cmp a b) s = .next t) :
    (∃ r q : Fin 8, r.val = a.toNat ∧ q.val = b.toNat ∧
      t = (s.setFl (aluCmp (s.readReg r) (s.readReg q))).advance 3) ∨
      RegFault a s t ∨ (a.toNat ≤ 7 ∧ RegFault b s t) := by
  rcases checkReg_next (by simpa only [exec, execCmp] using h) with ⟨r, hr, e⟩ | hf
  · rcases checkReg_next e with ⟨q, hq, e⟩ | hf
    · exact .inl ⟨r, q, hr, hq, by simpa [eq_comm] using e⟩
    · exact .inr (.inr ⟨by omega, hf⟩)
  · exact .inr (.inl hf)

theorem execPush_next {a : Byte} {s t : State} (h : exec (.push a) s = .next t) :
    (∃ (r : Fin 8) (sp' : Byte), r.val = a.toNat ∧ spDec s.cfg.spRange s.sp = .ok sp' ∧
      t = ((s.storeByte sp'.toNat (if r = spIndex then sp' else s.readReg r)).writeSp sp').advance 2) ∨
      RegFault a s t ∨
      (a.toNat ≤ 7 ∧ ∃ addr, spDec s.cfg.spRange s.sp = .error addr ∧
        t = s.enterFault .memoryAddressOutOfRange addr) := by
  rcases checkReg_next (by simpa only [exec, execPush, memWrite_byte] using h) with ⟨r, hr, e⟩ | hf
  · rcases checkSp_next e with ⟨sp', hs, e⟩ | hf
    · exact .inl ⟨r, sp', hr, hs, by simpa [eq_comm] using e⟩
    · exact .inr (.inr ⟨by omega, hf⟩)
  · exact .inr (.inl hf)

theorem execPop_next {a : Byte} {s t : State} (h : exec (.pop a) s = .next t) :
    (∃ (r : Fin 8) (sp' : Byte), r.val = a.toNat ∧
      spInc s.cfg.spRange (if r = spIndex then memGet s.mem s.sp.toNat else s.sp) = .ok sp' ∧
      t = ((s.writeReg r (memGet s.mem s.sp.toNat)).writeSp sp').advance 2) ∨
      RegFault a s t ∨
      (∃ (r : Fin 8) (addr : Int), r.val = a.toNat ∧
        spInc s.cfg.spRange (if r = spIndex then memGet s.mem s.sp.toNat else s.sp) = .error addr ∧
        t = s.enterFault .memoryAddressOutOfRange addr) := by
  rcases checkReg_next (by simpa only [exec, execPop, memRead_byte] using h) with ⟨r, hr, e⟩ | hf
  · rcases checkSp_next e with ⟨sp', hs, e⟩ | ⟨addr, hs, e⟩
    · exact .inl ⟨r, sp', hr, hs, by simpa [eq_comm] using e⟩
    · exact .inr (.inr ⟨r, addr, hr, hs, e⟩)
  · exact .inr (.inl hf)

theorem execCall_next {a : Byte} {s t : State} (h : exec (.call a) s = .next t) :
    (∃ (r : Fin 8) (sp' : Byte), r.val = a.toNat ∧ spDec s.cfg.spRange s.sp = .ok sp' ∧ s.pc + 2 ≤ 255 ∧
      t = ((s.storeByte sp'.toNat (BitVec.ofNat 8 (s.pc + 2))).writeSp sp').jump
        (if r = spIndex then sp' else s.readReg r)) ∨
      RegFault a s t ∨
      (a.toNat ≤ 7 ∧ ∃ addr, spDec s.cfg.spRange s.sp = .error addr ∧
        t = s.enterFault .memoryAddressOutOfRange addr) ∨
      (a.toNat ≤ 7 ∧ (∃ sp', spDec s.cfg.spRange s.sp = .ok sp') ∧ 255 < s.pc + 2 ∧
        t = s.enterFault .memoryAddressOutOfRange (s.pc + 2 : Nat)) := by
  rcases checkReg_next (by simpa only [exec, execCall, memWrite_byte] using h) with ⟨r, hr, e⟩ | hf
  · rcases checkSp_next e with ⟨sp', hs, e⟩ | hf
    · rcases checkAddress_next e with ⟨hp, e⟩ | ⟨hp, e⟩
      · exact .inl ⟨r, sp', hr, hs, hp, (Host.Outcome.next.inj e).symm⟩
      · exact .inr (.inr (.inr ⟨by omega, ⟨sp', hs⟩, hp, e⟩))
    · exact .inr (.inr (.inl ⟨by omega, hf⟩))
  · exact .inr (.inl hf)

theorem execRet_next {s t : State} (h : exec .ret s = .next t) :
    (∃ sp', spInc s.cfg.spRange s.sp = .ok sp' ∧ t = (s.writeSp sp').jump (memGet s.mem s.sp.toNat)) ∨
      (∃ addr, spInc s.cfg.spRange s.sp = .error addr ∧ t = s.enterFault .memoryAddressOutOfRange addr) := by
  refine (checkSp_next (by simpa only [exec, execRet, memRead_byte] using h)).imp_left ?_
  rintro ⟨sp', hs, e⟩
  exact ⟨sp', hs, by simpa [eq_comm] using e⟩

theorem execJmp_next {a : Byte} {s t : State} (h : exec (.jmp a) s = .next t) :
    (∃ r : Fin 8, r.val = a.toNat ∧ t = s.jump (s.readReg r)) ∨ RegFault a s t := by
  refine (checkReg_next (by simpa only [exec, execJmp] using h)).imp_left ?_
  rintro ⟨r, hr, e⟩
  exact ⟨r, hr, by simpa [eq_comm] using e⟩

theorem execJeq_next {a : Byte} {s t : State} (h : exec (.jeq a) s = .next t) :
    (∃ r : Fin 8, r.val = a.toNat ∧ t = if s.fl.e then s.jump (s.readReg r) else s.advance 2) ∨ RegFault a s t := by
  refine (checkReg_next (by simpa only [exec, execJeq] using h)).imp_left ?_
  rintro ⟨r, hr, e⟩
  refine ⟨r, hr, ?_⟩
  split at e <;> simp_all

theorem execJne_next {a : Byte} {s t : State} (h : exec (.jne a) s = .next t) :
    (∃ r : Fin 8, r.val = a.toNat ∧ t = if s.fl.e then s.advance 2 else s.jump (s.readReg r)) ∨ RegFault a s t := by
  refine (checkReg_next (by simpa only [exec, execJne] using h)).imp_left ?_
  rintro ⟨r, hr, e⟩
  refine ⟨r, hr, ?_⟩
  split at e <;> simp_all

end Sys2Proof.Machine
end

