-- ==== Sys2Proof/Laws/Memory.lean ====
section
/-! SUPPORT. Memory: a read after a write, and the canonical form, which every operation on memory keeps. -/

namespace Sys2Proof.Machine

@[simp] theorem memGet_nil (a : Nat) : memGet [] a = unlistedByte := rfl

theorem memGet_memDrop (m : Memory) (a b : Nat) :
    memGet (memDrop m a) b = if b = a then unlistedByte else memGet m b := by
  induction m with
  | nil => simp [memDrop]
  | cons c m ih =>
    simp only [memDrop] at ih ⊢
    by_cases hc : c.1 = a
    · simp only [List.filter_cons, hc, ne_eq, not_true_eq_false, decide_false, Bool.false_eq_true, if_false, ih, memGet]
      by_cases hb : b = a
      · simp [hb]
      · simp [hb, Ne.symm hb]
    · simp only [List.filter_cons, hc, ne_eq, not_false_eq_true, decide_true, if_true, memGet, ih]
      by_cases hb : b = a
      · simp [hb, hc]
      · simp [hb]

theorem memGet_memInsert (m : Memory) (a b : Nat) (v : Byte) (h : ∀ c ∈ m, c.1 ≠ a) :
    memGet (memInsert m a v) b = if b = a then v else memGet m b := by
  induction m with
  | nil => simp [memInsert, memGet, eq_comm]
  | cons c m ih =>
    have hc := h c (by simp)
    have hm := ih fun d hd => h d (by simp [hd])
    simp only [memInsert]
    split
    · simp [memGet, eq_comm]
    · simp only [memGet, hm]
      by_cases hb : b = a
      · simp [hb, hc]
      · simp [hb]

theorem memDrop_ne (m : Memory) (a : Nat) : ∀ c ∈ memDrop m a, c.1 ≠ a := by
  simp [memDrop]

/-- A read after a write, for every list of cells (R34, R41). -/
theorem memGet_memSet (m : Memory) (a b : Nat) (v : Byte) :
    memGet (memSet m a v) b = if b = a then v else memGet m b := by
  unfold memSet
  split
  · next h => simp [memGet_memDrop, h]
  · rw [memGet_memInsert _ _ _ _ (memDrop_ne m a), memGet_memDrop]
    split <;> rfl

@[simp] theorem memGet_memSet_self (m : Memory) (a : Nat) (v : Byte) : memGet (memSet m a v) a = v := by
  simp [memGet_memSet]

theorem memGet_memSet_ne (m : Memory) {a b : Nat} (v : Byte) (h : b ≠ a) :
    memGet (memSet m a v) b = memGet m b := by
  simp [memGet_memSet, h]

theorem memWf_nil : memWf [] := ⟨List.Pairwise.nil, by simp⟩

theorem memWf_cons (c : Host.Cell) (m : Memory) :
    memWf (c :: m) ↔ (∀ d ∈ m, c.1 < d.1) ∧ c.1 ≤ topAddress ∧ c.2 ≠ unlistedByte ∧ memWf m := by
  simp only [memWf, List.pairwise_cons, List.forall_mem_cons]
  tauto

theorem memDrop_wf {m : Memory} (a : Nat) (h : memWf m) : memWf (memDrop m a) :=
  ⟨h.1.filter _, fun c hc => h.2 c (List.mem_of_mem_filter hc)⟩

theorem mem_memInsert {m : Memory} {a : Nat} {v : Byte} {c : Host.Cell} (h : c ∈ memInsert m a v) :
    c = (a, v) ∨ c ∈ m := by
  induction m with
  | nil => simpa [memInsert] using h
  | cons d m ih =>
    simp only [memInsert] at h
    split at h
    · simpa using h
    · rcases List.mem_cons.1 h with h | h
      · simp [h]
      · rcases ih h with h | h <;> simp [h]

theorem memInsert_wf {m : Memory} {a : Nat} {v : Byte} (h : memWf m) (hne : ∀ c ∈ m, c.1 ≠ a)
    (ha : a ≤ topAddress) (hv : v ≠ unlistedByte) : memWf (memInsert m a v) := by
  induction m with
  | nil => exact (memWf_cons _ _).2 ⟨by simp, ha, hv, memWf_nil⟩
  | cons c m ih =>
    obtain ⟨hlt, hc, hcv, hm⟩ := (memWf_cons c m).1 h
    have hca := hne c (by simp)
    simp only [memInsert]
    split
    · next hac =>
      refine (memWf_cons _ _).2 ⟨?_, ha, hv, h⟩
      intro d hd
      rcases List.mem_cons.1 hd with rfl | hd
      · exact hac
      · exact hac.trans (hlt d hd)
    · next hac =>
      refine (memWf_cons _ _).2 ⟨?_, hc, hcv, ih hm fun d hd => hne d (by simp [hd])⟩
      intro d hd
      rcases mem_memInsert hd with rfl | hd
      · simp only
        omega
      · exact hlt d hd

/-- Every store within the address space keeps the canonical form. -/
theorem memSet_wf {m : Memory} {a : Nat} (v : Byte) (h : memWf m) (ha : a ≤ topAddress) : memWf (memSet m a v) := by
  unfold memSet
  split
  · exact memDrop_wf a h
  · next hv => exact memInsert_wf (memDrop_wf a h) (memDrop_ne m a) ha hv

/-- Placing bytes keeps the canonical form, wherever they are placed. -/
theorem placeBytes_wf {m : Memory} (a : Nat) (bs : List Byte) (h : memWf m) : memWf (placeBytes m a bs) := by
  induction bs generalizing m a with
  | nil => exact h
  | cons b bs ih =>
    simp only [placeBytes]
    split
    · next ha => exact ih _ (memSet_wf b h ha)
    · exact ih _ h

theorem reset_mem_wf : memWf State.reset.mem := memWf_nil

/-- The bytes readable from `a` on: byte `k` is there exactly when it is asked for and its address exists. -/
theorem bytesFrom_getElem? (m : Memory) (a n k : Nat) :
    (bytesFrom m a n)[k]? = if k < n ∧ a + k ≤ topAddress then some (memGet m (a + k)) else none := by
  induction n generalizing a k with
  | zero => simp [bytesFrom]
  | succ n ih =>
    simp only [bytesFrom]
    split
    · next h =>
      cases k with
      | zero => simp [h]
      | succ k =>
        have e : a + 1 + k = a + (k + 1) := by omega
        simp [ih, e]
    · next h =>
      have : ¬(k < n + 1 ∧ a + k ≤ topAddress) := by omega
      rw [if_neg this]
      rfl

end Sys2Proof.Machine
end

