-- ==== Sys2Proof/Laws/Step.lean ====
section
/-! SUPPORT. What a step that answers a next state is, and how the window at the pc looks. -/

namespace Sys2Proof.Machine

theorem step_ready {s : State} (h : s.Ready) : step s = dispatchFetched exec s.fetch s := by
  simp [step, h.1, h.2]

/-- Only a ready core takes a step (R62, R63, R71). -/
theorem ready_of_step {s t : State} (h : step s = .next t) : s.Ready := by
  unfold step at h
  cases hr : s.resetHigh <;> cases hn : s.run <;> simp_all [State.Ready]

/-- Everything a step can do: run the fetched instruction, fault on the fetch, meet an unrecognized opcode, or fault
on a missing operand byte (R63). -/
theorem step_next {s t : State} (h : step s = .next t) :
    s.Ready ∧
      ((∃ i rest, s.fetch = .instr i rest ∧ exec i s = .next t) ∨
       (s.fetch = .noOpcode ∧ t = s.enterFault .memoryAddressOutOfRange s.pc) ∨
       (∃ opc, s.fetch = .unrecognized opc ∧ s.cfg.unknownOpcode = .fault ∧
          t = s.enterFault .unrecognizedOpcode opc.toNat) ∨
       (∃ opc, s.fetch = .unrecognized opc ∧ s.cfg.unknownOpcode = .hang ∧ t = s) ∨
       (∃ n, s.fetch = .missingOperand n ∧ t = s.enterFault .memoryAddressOutOfRange (s.pc + n : Nat))) := by
  have hr := ready_of_step h
  refine ⟨hr, ?_⟩
  rw [step_ready hr] at h
  cases e : s.fetch with
  | instr i rest => exact .inl ⟨i, rest, rfl, by simpa [dispatchFetched, e] using h⟩
  | noOpcode =>
    refine .inr (.inl ⟨rfl, ?_⟩)
    simpa [dispatchFetched, e, raise_eq_next] using h
  | unrecognized opc =>
    refine .inr (.inr ?_)
    cases hp : s.cfg.unknownOpcode with
    | fault =>
      refine .inl ⟨opc, rfl, rfl, ?_⟩
      simpa [dispatchFetched, e, unknownOpcode, hp, raise_eq_next] using h
    | hang =>
      refine .inr (.inl ⟨opc, rfl, rfl, ?_⟩)
      simpa [dispatchFetched, e, unknownOpcode, hp, eq_comm] using h
  | missingOperand n =>
    refine .inr (.inr (.inr (.inr ⟨n, rfl, ?_⟩)))
    simpa [dispatchFetched, e, raise_eq_next] using h

/-! The window at the pc, by where the pc stands. -/

theorem window_none {s : State} (h : 255 < s.pc) : s.window = [] := by
  simp [State.window, bytesFrom, topAddress, Nat.not_le.2 h]

theorem window_one {s : State} (h : s.pc = 255) : s.window = [memGet s.mem s.pc] := by
  simp [State.window, bytesFrom, topAddress, h]

theorem window_two {s : State} (h : s.pc = 254) : s.window = [memGet s.mem s.pc, s.operandByte 1] := by
  simp [State.window, bytesFrom, topAddress, h, State.operandByte]

theorem window_three {s : State} (h : s.pc ≤ 253) :
    s.window = [memGet s.mem s.pc, s.operandByte 1, s.operandByte 2] := by
  have h0 : s.pc ≤ 255 := by omega
  have h1 : s.pc + 1 ≤ 255 := by omega
  have h2 : s.pc + 1 + 1 ≤ 255 := by omega
  simp [State.window, bytesFrom, topAddress, h0, h1, h2, State.operandByte]

/-- Within memory the window begins with the opcode byte. -/
theorem window_cons {s : State} (h : s.pc ≤ 255) :
    s.window = memGet s.mem s.pc :: bytesFrom s.mem (s.pc + 1) 2 := by
  simp [State.window, bytesFrom, topAddress, h]

/-! The bytes after the opcode, by where the pc stands. -/

theorem operands_none {s : State} (h : 255 < s.pc + 1) : bytesFrom s.mem (s.pc + 1) 2 = [] := by
  simp only [bytesFrom, topAddress]
  exact if_neg (Nat.not_le.2 h)

theorem operands_one {s : State} (h : s.pc = 254) : bytesFrom s.mem (s.pc + 1) 2 = [s.operandByte 1] := by
  simp [bytesFrom, topAddress, h, State.operandByte]

theorem operands_cons {s : State} (h : s.pc + 1 ≤ 255) :
    bytesFrom s.mem (s.pc + 1) 2 = s.operandByte 1 :: bytesFrom s.mem (s.pc + 2) 1 := by
  simp only [bytesFrom, topAddress, State.operandByte]
  exact if_pos h

theorem operands_two {s : State} (h : s.pc + 2 ≤ 255) :
    bytesFrom s.mem (s.pc + 1) 2 = [s.operandByte 1, s.operandByte 2] := by
  rw [operands_cons (by omega)]
  simp only [bytesFrom, topAddress, State.operandByte]
  rw [if_pos h]

/-- At a recognized opcode, fetching is taking that mnemonic's operands from the bytes after it (R66). -/
theorem fetch_atOpcode {s : State} {m : Mnemonic} (h : s.AtOpcode m) :
    s.fetch = decodeOperands m (bytesFrom s.mem (s.pc + 1) 2) := by
  obtain ⟨_, hd, hp, ho⟩ := h
  simp [State.fetch, window_cons hp, decode, ho, lookup_byteOf hd]

/-- At an opcode byte no mnemonic has, the fetch says so, whatever bytes follow (R53, R107). -/
theorem fetch_unrecognized {s : State} (h : s.pc ≤ 255) (hm : ∀ m, s.cfg.opcodeMap.byteOf m ≠ memGet s.mem s.pc) :
    s.fetch = .unrecognized (memGet s.mem s.pc) := by
  simp [State.fetch, window_cons h, decode, lookup_eq_none.2 hm]

/-- Whatever is fetched as a recognized opcode has its operands taken from the bytes after it. -/
theorem fetch_recognized {s : State} {m : Mnemonic} (h : s.pc ≤ 255)
    (e : s.cfg.opcodeMap.lookup (memGet s.mem s.pc) = some m) :
    s.fetch = decodeOperands m (bytesFrom s.mem (s.pc + 1) 2) := by
  simp [State.fetch, window_cons h, decode, e]

/-- An instruction that fits below address 256 has all its operand bytes (R66). -/
theorem decodeOperands_fits (s : State) (m : Mnemonic) (h : s.pc + m.arity ≤ 255) :
    ∃ rest, decodeOperands m (bytesFrom s.mem (s.pc + 1) 2) = .instr (s.instrAtPc m) rest := by
  cases m <;> first
    | exact ⟨_, rfl⟩
    | (rw [operands_two h]; exact ⟨_, rfl⟩)
    | (rw [operands_cons h]; exact ⟨_, rfl⟩)

/-- A fetched instruction lies within memory, whole. -/
theorem fetch_within_memory {s : State} {i : Instr} {rest : List Byte} (h : s.fetch = .instr i rest) :
    s.pc + i.mnemonic.arity ≤ 255 := by
  have hpc : s.pc ≤ 255 := by
    by_contra hc
    simp [State.fetch, window_none (Nat.not_le.1 hc), decode] at h
  cases e : s.cfg.opcodeMap.lookup (memGet s.mem s.pc) with
  | none => simp [State.fetch, window_cons hpc, decode, e] at h
  | some m =>
    rw [fetch_recognized hpc e] at h
    by_cases h2 : s.pc + 2 ≤ 255
    · have : i.mnemonic.arity ≤ 2 := by cases i.mnemonic <;> decide
      omega
    · by_cases h1 : s.pc = 254
      · rw [operands_one h1] at h
        cases m <;> simp [decodeOperands, takeOne, takeTwo] at h <;> obtain ⟨rfl, rfl⟩ := h <;>
          simp [h1, Instr.mnemonic, Mnemonic.arity, Mnemonic.format, Format.arity]
      · rw [operands_none (by omega)] at h
        cases m <;> simp [decodeOperands, takeOne, takeTwo] at h <;> obtain ⟨rfl, rfl⟩ := h <;>
          simpa [Instr.mnemonic, Mnemonic.arity, Mnemonic.format, Format.arity] using hpc

end Sys2Proof.Machine
end

