-- ==== Sys2Proof/Laws/Claims.lean ====
section
/-! SUPPORT. The terms of the claims (Safety.lean) and the operations of the machine: how each is the other. -/

namespace Sys2Proof.Machine

/-- A legal operand byte names a register. -/
theorem exists_reg {op : Byte} (h : op.toNat ≤ 7) : ∃ r : Fin 8, r.val = op.toNat :=
  ⟨⟨op.toNat, Nat.lt_succ_of_le h⟩, rfl⟩

theorem checkReg_reg {op : Byte} {r : Fin 8} (h : r.val = op.toNat) (s : State) (k : Fin 8 → Result) :
    checkReg op s k = k r := by
  rw [checkReg_ok (by omega)]
  exact congrArg k (Fin.ext h.symm)

theorem State.regAt_reg {op : Byte} {r : Fin 8} (h : r.val = op.toNat) (s : State) : s.regAt op = s.readReg r :=
  congrArg s.readReg (Fin.ext (by simp only [Fin.ofNat]; omega))

theorem State.withReg_reg (s : State) (r : Fin 8) (v : Byte) : s.withReg r.val v = s.writeReg r v := by
  simp only [State.withReg, State.writeReg]
  congr 1
  ext i hi
  simp [Vector.getElem_set, Vector.getElem_setIfInBounds]

theorem State.withReg_sp (s : State) (v : Byte) : s.withReg 7 v = s.writeSp v := s.withReg_reg 7 v

theorem reg_eq_sp_iff {op : Byte} {r : Fin 8} (h : r.val = op.toNat) : r = spIndex ↔ op = 7 := by
  constructor
  · rintro rfl
    exact BitVec.eq_of_toNat_eq h.symm
  · rintro rfl
    exact Fin.ext h

theorem isRegIndex_iff (op : Byte) : isRegIndex op = true ↔ op.toNat ≤ 7 := by simp [isRegIndex]

@[simp] theorem mapNext_next (f : State → State) (s : State) : mapNext f (.next s) = .next (f s) := rfl

/-- Changing a state in a way fault entry does not see commutes with fault entry. -/
theorem enterFault_setFl (s : State) (f : Flags) (k : FaultKind) (d : Int) :
    (s.setFl f).enterFault k d = (s.enterFault k d).setFl f := rfl

theorem enterFault_writeReg (s : State) (r : Fin 8) (v : Byte) (k : FaultKind) (d : Int) :
    (s.writeReg r v).enterFault k d = (s.enterFault k d).writeReg r v := rfl

/-! A change of state `f` that commutes with fault entry commutes with each shared check, when it does with what
follows the check. -/

theorem checkReg_mapNext {f : State → State} {op : Byte} {s s' : State} {k k' : Fin 8 → Result}
    (hf : ∀ e d, f (s.enterFault e d) = s'.enterFault e d)
    (hk : ∀ r : Fin 8, r.val = op.toNat → k' r = mapNext f (k r)) :
    checkReg op s' k' = mapNext f (checkReg op s k) := by
  by_cases h : op.toNat ≤ 7
  · obtain ⟨r, hr⟩ := exists_reg h
    rw [checkReg_reg hr, checkReg_reg hr, hk r hr]
  · rw [checkReg_bad (by omega), checkReg_bad (by omega), mapNext_next, hf]

theorem checkSp_mapNext {f : State → State} {x : Except Int Byte} {s s' : State} {k k' : Byte → Result}
    (hf : ∀ e d, f (s.enterFault e d) = s'.enterFault e d) (hk : ∀ v, k' v = mapNext f (k v)) :
    checkSp x s' k' = mapNext f (checkSp x s k) := by
  cases x with
  | error a => simp [hf]
  | ok v => simp [hk]

theorem checkAddress_mapNext {f : State → State} {a : Nat} {s s' : State} {k k' : Nat → Result}
    (hf : ∀ e d, f (s.enterFault e d) = s'.enterFault e d) (hk : ∀ v, k' v = mapNext f (k v)) :
    checkAddress a s' k' = mapNext f (checkAddress a s k) := by
  by_cases h : a ≤ 255
  · rw [checkAddress_ok h, checkAddress_ok h, hk]
  · rw [checkAddress_bad (by omega), checkAddress_bad (by omega), mapNext_next, hf]

end Sys2Proof.Machine
end

