-- ==== Sys2Proof/Laws/PerInstr.lean ====
section
/-! SUPPORT. Statements made per instruction, about the instruction as syntax. -/

namespace Sys2Proof.Laws

/-- Under every opcode map an instruction's encoding is as long as its mnemonic says: one opcode byte and `arity`
operand bytes (R46, R49). -/
def EncodedLength.Statement (i : Instr) : Prop :=
  ∀ map : OpcodeMap, (encode map i).length = i.mnemonic.length

theorem EncodedLength.hlt : EncodedLength.Statement .hlt := fun _ => rfl
theorem EncodedLength.ldi (a imm : Byte) : EncodedLength.Statement (.ldi a imm) := fun _ => rfl
theorem EncodedLength.prn (a : Byte) : EncodedLength.Statement (.prn a) := fun _ => rfl
theorem EncodedLength.mul (a b : Byte) : EncodedLength.Statement (.mul a b) := fun _ => rfl
theorem EncodedLength.cmp (a b : Byte) : EncodedLength.Statement (.cmp a b) := fun _ => rfl
theorem EncodedLength.push (a : Byte) : EncodedLength.Statement (.push a) := fun _ => rfl
theorem EncodedLength.pop (a : Byte) : EncodedLength.Statement (.pop a) := fun _ => rfl
theorem EncodedLength.call (a : Byte) : EncodedLength.Statement (.call a) := fun _ => rfl
theorem EncodedLength.ret : EncodedLength.Statement .ret := fun _ => rfl
theorem EncodedLength.jmp (a : Byte) : EncodedLength.Statement (.jmp a) := fun _ => rfl
theorem EncodedLength.jeq (a : Byte) : EncodedLength.Statement (.jeq a) := fun _ => rfl
theorem EncodedLength.jne (a : Byte) : EncodedLength.Statement (.jne a) := fun _ => rfl

end Sys2Proof.Laws
end

