-- ==== Sys2Proof/Tests/Slice0.lean ====
section
/-! SUPPORT. The model's own tests: ill-formed terms refused, words of the spec's encodings, one-step vectors of
95_test_vectors.md (named in each comment), and for each statement with hypotheses a state and operands that meet
them. -/

namespace Sys2Proof.Machine.Tests

/-! States to test on. -/

/-- The reset state with bytes stored from an address on, and the pc there. -/
def at' (pc : Nat) (bytes : List Byte) : State :=
  { State.reset with pc := pc, mem := placeBytes [] pc bytes }

/-- `s` under the policy `wrap`. -/
def wrapping (s : State) : State := { s with cfg := ⟨defaultOpcodeMap, .wrap, .fault⟩ }

/-- `s` under the policy `hang`. -/
def hanging (s : State) : State := { s with cfg := ⟨defaultOpcodeMap, .fault, .hang⟩ }

/-- The state after a step, where there is one. -/
def after (s : State) : Option State := nextState? (step s)

/-! Well-formedness: an ill-formed term for each check. -/

theorem test_wf_refuses_bad_op1 :
    ([Instr.ldi 8 0, .prn 8, .mul 8 0, .cmp 8 0, .push 8, .pop 255, .call 8, .jmp 9, .jeq 128, .jne 8].map Instr.wf).all
      (· == false) = true := by decide
theorem test_wf_refuses_bad_op2 : Instr.wf (.mul 0 8) = false ∧ Instr.wf (.cmp 7 255) = false := by decide
theorem test_wf_accepts_limits :
    ([Instr.hlt, .ldi 7 255, .prn 7, .mul 7 7, .cmp 7 0, .push 7, .pop 7, .call 7, .ret, .jmp 7, .jeq 7, .jne 7].map
      Instr.wf).all id = true := by decide
theorem test_map_with_a_repeated_byte_is_refused :
    ¬ OpcodeMap.Distinct { defaultOpcodeMap with pop := 0x45 } := by decide

/-! Decoding: a word of each instruction, from R50's binary column and R47's formats. -/

theorem test_decode_hlt : decode defaultOpcodeMap [0b00000001, 9] = .instr .hlt [9] := by decide
theorem test_decode_ldi : decode defaultOpcodeMap [0b10000010, 0, 8] = .instr (.ldi 0 8) [] := by decide
theorem test_decode_prn : decode defaultOpcodeMap [0b01000111, 6] = .instr (.prn 6) [] := by decide
theorem test_decode_mul : decode defaultOpcodeMap [0b10100010, 2, 5] = .instr (.mul 2 5) [] := by decide
theorem test_decode_cmp : decode defaultOpcodeMap [0b10100111, 1, 7] = .instr (.cmp 1 7) [] := by decide
theorem test_decode_push : decode defaultOpcodeMap [0b01000101, 1] = .instr (.push 1) [] := by decide
theorem test_decode_pop : decode defaultOpcodeMap [0b01000110, 2] = .instr (.pop 2) [] := by decide
theorem test_decode_call : decode defaultOpcodeMap [0b01010000, 3] = .instr (.call 3) [] := by decide
theorem test_decode_ret : decode defaultOpcodeMap [0b00010001] = .instr .ret [] := by decide
theorem test_decode_jmp : decode defaultOpcodeMap [0b01010100, 4] = .instr (.jmp 4) [] := by decide
theorem test_decode_jeq : decode defaultOpcodeMap [0b01010101, 5] = .instr (.jeq 5) [] := by decide
theorem test_decode_jne : decode defaultOpcodeMap [0b01010110, 6] = .instr (.jne 6) [] := by decide
/-- R53, R54: 0x00, ADD's byte and 0xFF are unrecognized. -/
theorem test_decode_unrecognized :
    decode defaultOpcodeMap [0x00, 1] = .unrecognized 0x00 ∧ decode defaultOpcodeMap [0xA0, 0, 1] = .unrecognized 0xA0 ∧
    decode defaultOpcodeMap [0xFF] = .unrecognized 0xFF := by decide
/-- The table numbers bits from the first byte up: A7, then 03, then 05. -/
theorem test_decodeTableWord_cmp : decodeTableWord 24 0x0503A7 = some (.cmp 3 5) := by decide
theorem test_decodeTableWord_opcode_only : decodeTableWord 8 0x82 = some (.ldi 0 0) := by decide
theorem test_withFetchWord_runs_ldi :
    (after (State.reset.withFetchWord 24 0x080282)).map (fun t => (t.readReg 2, t.pc)) = some (8, 3) := by decide

/-! One step: vectors of 95_test_vectors.md, at most two per instruction. -/

/-- L-2. -/
theorem test_hlt_at_255 : (after (at' 255 [0x01])).map (fun t => (t.run, t.pc)) = some (.halted, 255) := by decide
/-- E7. -/
theorem test_hlt_alone :
    (after (at' 0 [0x01])).map (fun t => (t.run, t.pc, t.out, t.fault)) = some (.halted, 0, [], none) := by decide
/-- L-3. -/
theorem test_empty_image : (after State.reset).map (fun t => t.fault) = some (some ⟨.unrecognizedOpcode, 0, 0⟩) := by
  decide
/-- L-5. -/
theorem test_fetch_at_256 :
    (after (at' 256 [])).map (fun t => t.fault) = some (some ⟨.memoryAddressOutOfRange, 256, 256⟩) := by decide
/-- L-6. -/
theorem test_prn_missing_operand :
    (after (at' 255 [0x47])).map (fun t => (t.fault, t.out)) =
      some (some ⟨.memoryAddressOutOfRange, 255, 256⟩, []) := by decide
/-- L-9. -/
theorem test_hang_changes_nothing : after (hanging State.reset) = some (hanging State.reset) := by decide
/-- I-3. -/
theorem test_ldi_r7 : (after (at' 0 [0x82, 7, 0x10])).map (fun t => (t.sp, t.pc)) = some (0x10, 3) := by decide
/-- I-6. -/
theorem test_ldi_at_254 :
    (after (at' 254 [0x82, 0])).map (fun t => t.fault) = some (some ⟨.memoryAddressOutOfRange, 254, 256⟩) := by decide
/-- P-2. -/
theorem test_prn_r7 : (after (at' 0 [0x47, 7])).map (fun t => (t.out, t.pc)) = some ([0xF4], 2) := by decide
/-- P-3. -/
theorem test_prn_r8 :
    (after (at' 0 [0x47, 8])).map (fun t => (t.fault, t.out)) = some (some ⟨.registerIndexOutOfRange, 0, 8⟩, []) := by
  decide
/-- A-4. -/
theorem test_mul_wraps :
    (after (((at' 0 [0xA2, 0, 1]).writeReg 0 200).writeReg 1 3)).map (fun t => (t.readReg 0, t.readReg 1, t.pc)) =
      some (88, 3, 3) := by decide
/-- A-10. -/
theorem test_mul_reports_op1_first :
    (after (at' 0 [0xA2, 9, 8])).map (fun t => t.fault) = some (some ⟨.registerIndexOutOfRange, 0, 9⟩) := by decide
/-- C-5. -/
theorem test_cmp_is_unsigned :
    (after (((at' 0 [0xA7, 0, 1]).writeReg 0 128).writeReg 1 127)).map (fun t => (t.fl, t.pc)) =
      some (⟨false, true, false⟩, 3) := by decide
/-- C-7. -/
theorem test_cmp_replaces_old_flags :
    (after ((((at' 0 [0xA7, 0, 1]).writeReg 0 2).writeReg 1 2).setFl ⟨false, false, true⟩)).map (fun t => t.fl) =
      some ⟨true, false, false⟩ := by decide
/-- S-3. -/
theorem test_push_r7 :
    (after (at' 0 [0x45, 7])).map (fun t => (t.sp, memGet t.mem 0xF3, t.pc)) = some (0xF3, 0xF3, 2) := by decide
/-- S-8. -/
theorem test_push_wraps :
    (after (((wrapping (at' 0 [0x45, 0])).writeSp 0).writeReg 0 5)).map (fun t => (t.sp, memGet t.mem 255)) =
      some (0xFF, 5) := by decide
/-- S-5. -/
theorem test_pop_r7 :
    (after (((at' 0 [0x46, 7]).writeSp 0xF3).storeByte 0xF3 80)).map (fun t => (t.sp, memGet t.mem 0xF3)) =
      some (81, 80) := by decide
/-- S-9. -/
theorem test_pop_at_top_faults :
    (after ((at' 0 [0x46, 0]).writeSp 0xFF)).map (fun t => (t.fault, t.sp)) =
      some (some ⟨.memoryAddressOutOfRange, 0, 256⟩, 0xFF) := by decide
/-- T-1. -/
theorem test_call :
    (after ((at' 6 [0x50, 1]).writeReg 1 11)).map (fun t => (t.sp, memGet t.mem 0xF3, t.pc)) = some (0xF3, 8, 11) := by
  decide
/-- T-5. -/
theorem test_call_at_254 :
    (after ((at' 254 [0x50, 0]).writeReg 0 0xFE)).map (fun t => (t.fault, t.sp)) =
      some (some ⟨.memoryAddressOutOfRange, 254, 256⟩, 0xF4) := by decide
/-- T-20. -/
theorem test_ret_at_255 :
    (after (((at' 255 [0x11]).writeSp 0xF3).storeByte 0xF3 5)).map (fun t => (t.pc, t.sp)) = some (5, 0xF4) := by decide
/-- T-8. -/
theorem test_ret_at_top_faults :
    (after ((at' 7 [0x11]).writeSp 0xFF)).map (fun t => t.fault) = some (some ⟨.memoryAddressOutOfRange, 7, 256⟩) := by
  decide
/-- T-10. -/
theorem test_jmp : (after ((at' 0 [0x54, 2]).writeReg 2 20)).map (fun t => t.pc) = some 20 := by decide
/-- T-12. -/
theorem test_jeq_taken :
    (after (((at' 12 [0x55, 2]).writeReg 2 20).setFl ⟨true, false, false⟩)).map (fun t => t.pc) = some 20 := by decide
/-- T-18: not taken, and the index is checked all the same. -/
theorem test_jeq_checks_index_when_not_taken :
    (after (at' 0 [0x55, 9])).map (fun t => t.fault) = some (some ⟨.registerIndexOutOfRange, 0, 9⟩) := by decide
/-- T-15. -/
theorem test_jne_falls_through :
    (after ((at' 18 [0x56, 3]).setFl ⟨true, false, false⟩)).map (fun t => t.pc) = some 20 := by decide
/-- T-16. -/
theorem test_jne_taken :
    (after (((at' 0 [0x56, 3]).writeReg 3 12).setFl ⟨false, true, false⟩)).map (fun t => t.pc) = some 12 := by decide
/-- U-1, U-2. -/
theorem test_alu_add : alu .add 200 100 = .result 44 ∧ alu .add 255 1 = .result 0 := by decide
/-- R122: a trace byte above 255 is absent. -/
theorem test_trace_at_254 : (tracePort (at' 254 [0x82, 0])).mem2 = none ∧ (tracePort (at' 254 [0x82, 7])).mem1 = some 7 := by
  decide
/-- P5, first row, through boot. -/
theorem test_boot_then_fault :
    ((boot [0x82, 0x08, 0x05] State.reset).bind after).map (fun t => (t.run, t.fault)) =
      some (.faulted, some ⟨.registerIndexOutOfRange, 0, 8⟩) := by decide

/-! Witnesses: for each statement with hypotheses, one state and operands that meet them, at the limits of each
clause. -/

theorem test_witness_DecodeOfEncodeIsTheInstruction : defaultOpcodeMap.Distinct := by decide
theorem test_witness_EncodeOfDecodeIsTheBytes :
    decode defaultOpcodeMap [0xA2, 255, 0, 9] = .instr (.mul 255 0) [9] := by decide
theorem test_witness_DecoderIsTotal :
    (defaultOpcodeMap.lookup 0x82 = some .ldi ∧ Mnemonic.ldi.arity ≤ [7, (8 : Byte)].length) ∧
    (defaultOpcodeMap.lookup 0x82 = some .ldi ∧ [(7 : Byte)].length < Mnemonic.ldi.arity) ∧
    (defaultOpcodeMap.lookup 0x47 = some .prn ∧ ([] : List Byte).length < Mnemonic.prn.arity) ∧
    defaultOpcodeMap.lookup 0 = none := by decide
theorem test_witness_OpcodeFieldsDescribeTheMap : defaultOpcodeMap.lookup 0xA7 = some .cmp := by decide
theorem test_witness_StepRunsDecodedInstruction :
    (at' 253 [0x82, 7, 1]).Ready ∧ (at' 253 [0x82, 7, 1]).fetch = .instr (.ldi 7 1) [] := by decide
theorem test_witness_StepRunsEncodedInstruction :
    (at' 253 [0x82, 7, 1]).Ready ∧ (at' 253 [0x82, 7, 1]).cfg.opcodeMap.Distinct ∧
    ∀ (k : Nat) (b : Byte), (encode (at' 253 [0x82, 7, 1]).cfg.opcodeMap (.ldi 7 1))[k]? = some b →
      (at' 253 [0x82, 7, 1]).pc + k ≤ 255 ∧ memGet (at' 253 [0x82, 7, 1]).mem ((at' 253 [0x82, 7, 1]).pc + k) = b := by
  refine ⟨by decide, by decide, ?_⟩
  rintro (_ | _ | _ | k) b h
  · cases h; decide
  · cases h; decide
  · cases h; decide
  · cases h
theorem test_witness_FetchAboveMemoryFaults : (at' 256 []).Ready ∧ 255 < (at' 256 []).pc := by decide
theorem test_witness_UnrecognizedOpcodeFaults :
    (at' 255 [0xA0]).Ready ∧ (at' 255 [0xA0]).cfg.unknownOpcode = .fault ∧ (at' 255 [0xA0]).pc ≤ 255 ∧
    (∀ m, (at' 255 [0xA0]).cfg.opcodeMap.byteOf m ≠ memGet (at' 255 [0xA0]).mem (at' 255 [0xA0]).pc) ∧
    (∃ t, step (at' 255 [0xA0]) = .next t ∧ t.fault = some ⟨.unrecognizedOpcode, 255, 0xA0⟩) ∧
    (at' 255 [0xA0]).fault = none :=
  ⟨by decide, by decide, by decide, fun m => by cases m <;> decide, ⟨_, rfl, by decide⟩, by decide⟩
theorem test_witness_UnrecognizedOpcodeHangs :
    (hanging State.reset).Ready ∧ (hanging State.reset).cfg.unknownOpcode = .hang ∧ (hanging State.reset).pc ≤ 255 ∧
    ∀ m, (hanging State.reset).cfg.opcodeMap.byteOf m ≠ memGet (hanging State.reset).mem (hanging State.reset).pc :=
  ⟨by decide, by decide, by decide, fun m => by cases m <;> decide⟩
/-- Every mnemonic with its last byte at address 255: `FetchesAs`, the clause that runs. -/
theorem test_witness_OperandFetchFollowsArity_fits :
    ∀ m ∈ allMnemonics,
      (at' (255 - m.arity) [defaultOpcodeMap.byteOf m]).AtOpcode m ∧
      (at' (255 - m.arity) [defaultOpcodeMap.byteOf m]).pc + m.arity ≤ 255 := by decide
/-- Every mnemonic with an operand, one byte higher: `FetchesAs`, the clause that faults. -/
theorem test_witness_OperandFetchFollowsArity_missing :
    ∀ m ∈ allMnemonics, m.arity ≠ 0 →
      (at' (256 - m.arity) [defaultOpcodeMap.byteOf m]).AtOpcode m ∧
      255 < (at' (256 - m.arity) [defaultOpcodeMap.byteOf m]).pc + m.arity := by decide
theorem test_witness_NoStepUnlessReady :
    (setReset true State.reset).resetHigh = true ∧
    (State.reset.halt.resetHigh = false ∧ State.reset.halt.run = .halted) ∧
    ((State.reset.enterFault .unrecognizedOpcode 0).resetHigh = false ∧
      (State.reset.enterFault .unrecognizedOpcode 0).run = .faulted) := by decide
theorem test_witness_EveryReadyStepAnswers : State.reset.Ready := by decide
theorem test_witness_FetchSeesStoredBytes : 2 < 3 ∧ (at' 253 []).pc + 2 ≤ 255 := by decide
theorem test_witness_HltHaltsInPlace : (at' 255 [0x01]).AtOpcode .hlt := by decide
/-- Legal and illegal register operands at the limits, both operands: LDI, PRN, MUL, CMP, JMP. -/
theorem test_witness_register_operands :
    (7 : Byte).toNat ≤ 7 ∧ 7 < (8 : Byte).toNat ∧ (0 : Byte).toNat ≤ 7 ∧ 7 < (255 : Byte).toNat := by decide
theorem test_witness_CmpSetsFlags :
    (7 : Byte).toNat ≤ 7 ∧ (0 : Byte).toNat ≤ 7 ∧ ∃ t, exec (.cmp 7 0) State.reset = .next t :=
  ⟨by decide, by decide, _, rfl⟩
/-- The lowest SP that does not fault, SP = 0 under `wrap` and under `fault`. -/
theorem test_witness_PushStoresBelowStack :
    ((State.reset.writeSp 1).sp ≠ 0 ∧ (0 : Byte) = (State.reset.writeSp 1).sp - 1) ∧
    ((wrapping (State.reset.writeSp 0)).sp = 0 ∧ (wrapping (State.reset.writeSp 0)).cfg.spRange = .wrap) ∧
    ((State.reset.writeSp 0).sp = 0 ∧ (State.reset.writeSp 0).cfg.spRange = .fault) ∧
    (7 : Byte).toNat ≤ 7 ∧ (∃ t, exec (.push 7) (State.reset.writeSp 1) = .next t) :=
  ⟨by decide, by decide, by decide, by decide, _, rfl⟩
theorem test_witness_PopLoadsFromStack :
    ((State.reset.writeSp 254).sp ≠ 255 ∧ (255 : Byte) = (State.reset.writeSp 254).sp + 1) ∧
    ((wrapping (State.reset.writeSp 255)).sp = 255 ∧ (wrapping (State.reset.writeSp 255)).cfg.spRange = .wrap) ∧
    ((State.reset.writeSp 255).sp = 255 ∧ (State.reset.writeSp 255).cfg.spRange = .fault) ∧
    (6 : Byte).toNat < 7 := by decide
theorem test_witness_PopIntoStackPointer :
    (memGet (State.reset.storeByte 0xF4 254).mem (State.reset.storeByte 0xF4 254).sp.toNat = 254 ∧
      (254 : Byte) ≠ 255 ∧ (255 : Byte) = 254 + 1) ∧
    (memGet (wrapping (State.reset.storeByte 0xF4 255)).mem (wrapping (State.reset.storeByte 0xF4 255)).sp.toNat = 255 ∧
      (wrapping (State.reset.storeByte 0xF4 255)).cfg.spRange = .wrap) ∧
    (memGet (State.reset.storeByte 0xF4 255).mem (State.reset.storeByte 0xF4 255).sp.toNat = 255 ∧
      (State.reset.storeByte 0xF4 255).cfg.spRange = .fault) := by decide
theorem test_witness_CallPushesReturnAddress :
    ((at' 253 []).pc + 2 ≤ 255 ∧ (at' 253 []).sp ≠ 0 ∧ (0xF3 : Byte) = (at' 253 []).sp - 1) ∧
    ((wrapping ((at' 253 []).writeSp 0)).pc + 2 ≤ 255 ∧ (wrapping ((at' 253 []).writeSp 0)).sp = 0 ∧
      (wrapping ((at' 253 []).writeSp 0)).cfg.spRange = .wrap) ∧
    (((at' 254 []).writeSp 0).sp = 0 ∧ ((at' 254 []).writeSp 0).cfg.spRange = .fault) ∧
    ((at' 254 []).sp ≠ 0 ∧ 255 < (at' 254 []).pc + 2) ∧
    (∃ t, exec (.call 7) (at' 253 []) = .next t) :=
  ⟨by decide, by decide, by decide, by decide, _, rfl⟩
theorem test_witness_RetPopsThePc :
    ((State.reset.writeSp 254).sp ≠ 255 ∧ (255 : Byte) = (State.reset.writeSp 254).sp + 1) ∧
    ((wrapping (State.reset.writeSp 255)).sp = 255 ∧ (wrapping (State.reset.writeSp 255)).cfg.spRange = .wrap) ∧
    ((State.reset.writeSp 255).sp = 255 ∧ (State.reset.writeSp 255).cfg.spRange = .fault) := by decide
theorem test_witness_JeqJumpsWhenEqual_JneJumpsWhenNotEqual :
    (7 : Byte).toNat ≤ 7 ∧ (State.reset.setFl ⟨true, false, false⟩).fl.e = true ∧ State.reset.fl.e = false := by decide
theorem test_witness_NonWriterFrame :
    (∃ t, exec .hlt State.reset = .next t) ∧ (∃ t, exec (.prn 7) State.reset = .next t) ∧
    (∃ t, exec (.cmp 7 0) State.reset = .next t) ∧ (∃ t, exec (.jmp 7) State.reset = .next t) ∧
    (∃ t, exec (.jeq 8) State.reset = .next t) ∧ (∃ t, exec (.jne 7) State.reset = .next t) :=
  ⟨⟨_, rfl⟩, ⟨_, rfl⟩, ⟨_, rfl⟩, ⟨_, rfl⟩, ⟨_, rfl⟩, ⟨_, rfl⟩⟩
theorem test_witness_RegisterWriterFrame :
    (∃ t, exec (.ldi 7 255) State.reset = .next t) ∧ (∃ t, exec (.mul 7 8) State.reset = .next t) ∧
    (6 : Fin 8).val ≠ (7 : Byte).toNat :=
  ⟨⟨_, rfl⟩, ⟨_, rfl⟩, by decide⟩
theorem test_witness_StackWriterFrame :
    (∃ t, exec (.push 0) State.reset = .next t) ∧ (∃ t, exec (.call 0) State.reset = .next t) ∧
    (nextState? (exec (.push 0) State.reset)).map State.sp = some 0xF3 ∧
    (match spDec State.reset.cfg.spRange State.reset.sp with | .ok v => v = 0xF3 | .error _ => False) ∧
    (match spDec State.reset.cfg.spRange 0 with | .ok _ => False | .error a => a = -1) :=
  ⟨⟨_, rfl⟩, ⟨_, rfl⟩, by decide, rfl, rfl⟩
theorem test_witness_StackReaderFrame :
    (∃ t, exec (.pop 3) State.reset = .next t) ∧ (∃ t, exec .ret State.reset = .next t) ∧
    (2 : Fin 8) ≠ 7 ∧ (2 : Fin 8).val ≠ (3 : Byte).toNat :=
  ⟨⟨_, rfl⟩, ⟨_, rfl⟩, by decide, by decide⟩
theorem test_witness_FlagsWrittenByCmpReadByJumps :
    (7 : Byte).toNat ≤ 7 ∧ (∀ a b, Instr.ldi 0 0 ≠ .cmp a b) ∧ (∀ a, Instr.ldi 0 0 ≠ .jeq a) ∧
    (∀ a, Instr.ldi 0 0 ≠ .jne a) ∧ (∃ t, exec (.ldi 0 0) State.reset = .next t) ∧
    (Flags.mk false true true).e = State.reset.fl.e :=
  ⟨by decide, nofun, nofun, nofun, ⟨_, rfl⟩, by decide⟩
theorem test_witness_OnlyPrnEmits :
    (∃ t, step (at' 0 [0x47, 7]) = .next t ∧ t.out = [0xF4]) ∧ (∃ t, step (at' 0 [0x01]) = .next t ∧ t.out = []) ∧
    (∃ t, exec (.prn 7) State.reset = .next t) :=
  ⟨⟨_, rfl, by decide⟩, ⟨_, rfl, by decide⟩, _, rfl⟩
theorem test_witness_OnlyPushAndCallWriteMemory :
    (∃ t, step (at' 0 [0x45, 7]) = .next t ∧ t.mem ≠ (at' 0 [0x45, 7]).mem) ∧ (∃ t, step (at' 0 [0x50, 0]) = .next t) :=
  ⟨⟨_, rfl, by decide⟩, _, rfl⟩
theorem test_witness_RegistersWrittenAreListed :
    ∃ t, exec (.ldi 7 9) State.reset = .next t ∧ t.readReg 7 ≠ State.reset.readReg 7 := ⟨_, rfl, by decide⟩
theorem test_witness_UnlistedRegistersDoNotMatter :
    (5 : Fin 8).val ∉ (Instr.pop 3).usesRegs ∧ (0 : Fin 8).val ∉ Instr.hlt.usesRegs := by decide
theorem test_witness_FaultsArePrecise : ∃ t, step State.reset = .next t ∧ t.run = .faulted := ⟨_, rfl, by decide⟩
/-- Each item of R112's list, in its order. -/
theorem test_witness_FaultsFollowThePriorityList :
    State.firstFault (at' 256 []) = some (.memoryAddressOutOfRange, 256) ∧
    State.firstFault State.reset = some (.unrecognizedOpcode, 0) ∧
    State.firstFault (at' 254 [0x82, 9]) = some (.memoryAddressOutOfRange, 256) ∧
    State.firstFault (at' 0 [0xA2, 9, 8]) = some (.registerIndexOutOfRange, 9) ∧
    State.firstFault ((at' 254 [0x50, 0]).writeSp 0) = some (.memoryAddressOutOfRange, -1) ∧
    State.firstFault (at' 254 [0x50, 0]) = some (.memoryAddressOutOfRange, 256) ∧
    State.firstFault (at' 0 [0x01]) = none ∧ State.firstFault (hanging State.reset) = none ∧
    (at' 254 [0x82, 9]).Ready := by decide
theorem test_witness_IllegalRegisterOperandFaults :
    (Instr.mul 0 8).firstBadReg = some 8 ∧ (Instr.mul 9 8).firstBadReg = some 9 ∧ (Instr.ldi 0 255).firstBadReg = none ∧
    (Instr.ldi 0 255).wf = true ∧
    ∃ (s t : State) (r : FaultRecord), exec (.ldi 0 255) s = .next t ∧ t.fault = some r ∧
      r.kind = .registerIndexOutOfRange :=
  ⟨by decide, by decide, by decide, by decide,
    State.reset.enterFault .registerIndexOutOfRange 8, _, ⟨.registerIndexOutOfRange, 0, 8⟩, rfl, by decide, by decide⟩
theorem test_witness_FaultTableOfTheInstructions :
    (exec (.ldi 8 0) State.reset = .next (State.reset.enterFault .registerIndexOutOfRange 8)) ∧
    (exec (.push 0) (State.reset.writeSp 0) =
      .next ((State.reset.writeSp 0).enterFault .memoryAddressOutOfRange (-1))) ∧
    (exec .ret (State.reset.writeSp 255) =
      .next ((State.reset.writeSp 255).enterFault .memoryAddressOutOfRange 256)) ∧
    (exec (.call 0) (at' 254 []) = .next ((at' 254 []).enterFault .memoryAddressOutOfRange 256)) ∧
    (at' 254 []).pc + (Instr.call 0).mnemonic.arity ≤ 255 ∧ (at' 254 []).run ≠ .faulted :=
  ⟨rfl, rfl, rfl, rfl, by decide, by decide⟩
theorem test_witness_StepKeepsTheInvariant :
    State.reset.Inv ∧ (at' 254 [0x45, 7]).Inv ∧ ∃ t, step (at' 254 [0x45, 7]) = .next t :=
  ⟨by decide, by decide, _, rfl⟩
theorem test_witness_HostMovesKeepTheInvariant :
    (setReset true State.reset).Inv ∧ ∃ t, boot [1] State.reset = some t := ⟨by decide, _, rfl⟩
/-- A state the invariant rules out: a listed zero byte. -/
theorem test_inv_refuses_listed_zero : ¬ State.Inv { State.reset with mem := [(3, 0)] } := by decide
theorem test_witness_PushThenPopRoundTrips :
    (7 : Byte).toNat ≤ 7 ∧ State.reset.sp ≠ 0 ∧ (∃ t, exec (.push 7) State.reset = .next t) ∧
    (wrapping (State.reset.writeSp 0)).cfg.spRange = .wrap ∧
    (∃ t, exec (.push 0) (wrapping (State.reset.writeSp 0)) = .next t) :=
  ⟨by decide, by decide, ⟨_, rfl⟩, by decide, _, rfl⟩
theorem test_witness_CallThenRetReturns :
    (at' 253 []).sp ≠ 0 ∧ (at' 253 []).pc + 2 ≤ 255 ∧
    ∃ t, exec (.call 0) (at' 253 []) = .next t ∧ t.cfg = (at' 253 []).cfg := ⟨by decide, by decide, _, rfl, by decide⟩
theorem test_witness_StackPointerArithmetic : (1 : Byte) ≠ 0 ∧ (254 : Byte) ≠ 255 := by decide
theorem test_witness_UnsupportedAluSelectFaults :
    ∃ (s t : State) (r : FaultRecord), step s = .next t ∧ t.fault = some r ∧ r.kind = .unsupportedAluOperation :=
  ⟨{ at' 0 [0x01] with fault := some ⟨.unsupportedAluOperation, 0, 5⟩ }, _, ⟨.unsupportedAluOperation, 0, 5⟩, rfl,
    by decide, by decide⟩
theorem test_witness_FlagByteLayout : flByte ⟨true, false, true⟩ = 0b00000101 ∧ 3 ≤ 3 := by decide
theorem test_witness_ResetRestartsFromAnyState : State.reset.halt.resetHigh = false := by decide
theorem test_witness_LoadsOnlyWhileResetIsHigh :
    State.reset.resetHigh = false ∧ (setReset true State.reset).resetHigh = true := by decide
theorem test_witness_BootPlacesTheImage :
    (List.replicate 256 (1 : Byte)).length ≤ 256 ∧ 256 < (List.replicate 257 (1 : Byte)).length :=
  ⟨Nat.le_of_eq List.length_replicate, Nat.lt_of_lt_of_eq (Nat.lt_succ_self 256) List.length_replicate.symm⟩
theorem test_witness_EmptyImageFaultsAtOnce : State.reset.cfg = defaultConfig := by decide
theorem test_witness_OutputSignals :
    State.reset.run = .running ∧ State.reset.halt.run = .halted ∧
    (State.reset.enterFault .memoryAddressOutOfRange (-1)).run = .faulted ∧ State.reset.fault = none ∧
    (at' 256 []).pc ≤ 256 ∧ (faultDetailPort ((at' 256 []).enterFault .memoryAddressOutOfRange 256)).map BitVec.toInt =
      some 256 := by decide

end Sys2Proof.Machine.Tests
end

namespace Sys2Proof.Machine

/-! What an instruction can do, said once for all twelve: it completes with its effect (`Completes`) or enters a fault
(`FaultOf`). The frames, the whole-machine rules of 10_state.md and the invariant are read off these two relations. -/

/-- On `s` the instruction passes every check and leaves the state of the last argument: the operations of its
pseudocode, one constructor per instruction and branch (R70, R82, R83, R86, R87, R93, R94, R98 to R102). -/
inductive Completes (s : State) : Instr → State → Prop
  | hlt : Completes s .hlt s.halt
  | ldi {a imm : Byte} {r : Fin 8} (hr : r.val = a.toNat) : Completes s (.ldi a imm) ((s.writeReg r imm).advance 3)
  | prn {a : Byte} {r : Fin 8} (hr : r.val = a.toNat) : Completes s (.prn a) ((s.emit (s.readReg r)).advance 2)
  | mul {a b : Byte} {r q : Fin 8} (hr : r.val = a.toNat) (hq : q.val = b.toNat) :
      Completes s (.mul a b) ((s.writeReg r (aluMul (s.readReg r) (s.readReg q))).advance 3)
  | cmp {a b : Byte} {r q : Fin 8} (hr : r.val = a.toNat) (hq : q.val = b.toNat) :
      Completes s (.cmp a b) ((s.setFl (aluCmp (s.readReg r) (s.readReg q))).advance 3)
  | push {a sp' : Byte} {r : Fin 8} (hr : r.val = a.toNat) (hs : spDec s.cfg.spRange s.sp = .ok sp') :
      Completes s (.push a)
        (((s.storeByte sp'.toNat (if r = spIndex then sp' else s.readReg r)).writeSp sp').advance 2)
  | pop {a sp' : Byte} {r : Fin 8} (hr : r.val = a.toNat)
      (hs : spInc s.cfg.spRange (if r = spIndex then memGet s.mem s.sp.toNat else s.sp) = .ok sp') :
      Completes s (.pop a) (((s.writeReg r (memGet s.mem s.sp.toNat)).writeSp sp').advance 2)
  | call {a sp' : Byte} {r : Fin 8} (hr : r.val = a.toNat) (hs : spDec s.cfg.spRange s.sp = .ok sp')
      (hp : s.pc + 2 ≤ 255) :
      Completes s (.call a)
        (((s.storeByte sp'.toNat (BitVec.ofNat 8 (s.pc + 2))).writeSp sp').jump
          (if r = spIndex then sp' else s.readReg r))
  | ret {sp' : Byte} (hs : spInc s.cfg.spRange s.sp = .ok sp') :
      Completes s .ret ((s.writeSp sp').jump (memGet s.mem s.sp.toNat))
  | jmp {a : Byte} {r : Fin 8} (hr : r.val = a.toNat) : Completes s (.jmp a) (s.jump (s.readReg r))
  | jeqTaken {a : Byte} {r : Fin 8} (hr : r.val = a.toNat) (he : s.fl.e = true) :
      Completes s (.jeq a) (s.jump (s.readReg r))
  | jeqNotTaken {a : Byte} {r : Fin 8} (hr : r.val = a.toNat) (he : s.fl.e = false) :
      Completes s (.jeq a) (s.advance 2)
  | jneTaken {a : Byte} {r : Fin 8} (hr : r.val = a.toNat) (he : s.fl.e = false) :
      Completes s (.jne a) (s.jump (s.readReg r))
  | jneNotTaken {a : Byte} {r : Fin 8} (hr : r.val = a.toNat) (he : s.fl.e = true) :
      Completes s (.jne a) (s.advance 2)

/-- The faults an instruction can take once it is fetched, with kind and detail (R92, R98, R108, R109). -/
inductive FaultOf (s : State) : Instr → FaultKind → Int → Prop
  | register {i : Instr} {op : Byte} (hop : op ∈ i.regOperands) (h : 7 < op.toNat) :
      FaultOf s i .registerIndexOutOfRange op.toNat
  | spBelow {i : Instr} (hi : ∃ a, i = .push a ∨ i = .call a) (hp : s.cfg.spRange = .fault) :
      FaultOf s i .memoryAddressOutOfRange (-1)
  | spAbove {i : Instr} (hi : i = .ret ∨ ∃ a, i = .pop a) (hp : s.cfg.spRange = .fault) :
      FaultOf s i .memoryAddressOutOfRange 256
  | returnAddress {a : Byte} (h : 255 < s.pc + 2) : FaultOf s (.call a) .memoryAddressOutOfRange (s.pc + 2 : Nat)

/-- The fault of an illegal register operand is one of the instruction's faults. -/
theorem RegFault.faultOf {i : Instr} {op : Byte} {s t : State} (h : RegFault op s t) (hop : op ∈ i.regOperands) :
    ∃ k d, FaultOf s i k d ∧ t = s.enterFault k d :=
  ⟨_, _, .register hop h.1, h.2⟩

/-- Every instruction that answers a next state has completed or has taken one of its faults. -/
theorem exec_next {i : Instr} {s t : State} (h : exec i s = .next t) :
    Completes s i t ∨ ∃ k d, FaultOf s i k d ∧ t = s.enterFault k d := by
  cases i with
  | hlt =>
    obtain rfl := execHlt_next h
    exact .inl .hlt
  | ldi a imm =>
    obtain ⟨r, hr, rfl⟩ | hf := execLdi_next h
    · exact .inl (.ldi hr)
    · exact .inr (hf.faultOf (.head _))
  | prn a =>
    obtain ⟨r, hr, rfl⟩ | hf := execPrn_next h
    · exact .inl (.prn hr)
    · exact .inr (hf.faultOf (.head _))
  | mul a b =>
    obtain ⟨r, q, hr, hq, rfl⟩ | hf | ⟨-, hf⟩ := execMul_next h
    · exact .inl (.mul hr hq)
    · exact .inr (hf.faultOf (.head _))
    · exact .inr (hf.faultOf (.tail _ (.head _)))
  | cmp a b =>
    obtain ⟨r, q, hr, hq, rfl⟩ | hf | ⟨-, hf⟩ := execCmp_next h
    · exact .inl (.cmp hr hq)
    · exact .inr (hf.faultOf (.head _))
    · exact .inr (hf.faultOf (.tail _ (.head _)))
  | push a =>
    obtain ⟨r, sp', hr, hs, rfl⟩ | hf | ⟨-, addr, hs, rfl⟩ := execPush_next h
    · exact .inl (.push hr hs)
    · exact .inr (hf.faultOf (.head _))
    · obtain ⟨rfl, -, hp⟩ := spDec_error hs
      exact .inr ⟨_, _, .spBelow ⟨a, .inl rfl⟩ hp, rfl⟩
  | pop a =>
    obtain ⟨r, sp', hr, hs, rfl⟩ | hf | ⟨r, addr, -, hs, rfl⟩ := execPop_next h
    · exact .inl (.pop hr hs)
    · exact .inr (hf.faultOf (.head _))
    · obtain ⟨rfl, -, hp⟩ := spInc_error hs
      exact .inr ⟨_, _, .spAbove (.inr ⟨a, rfl⟩) hp, rfl⟩
  | call a =>
    obtain ⟨r, sp', hr, hs, hp, rfl⟩ | hf | ⟨-, addr, hs, rfl⟩ | ⟨-, -, hp, rfl⟩ := execCall_next h
    · exact .inl (.call hr hs hp)
    · exact .inr (hf.faultOf (.head _))
    · obtain ⟨rfl, -, hp⟩ := spDec_error hs
      exact .inr ⟨_, _, .spBelow ⟨a, .inr rfl⟩ hp, rfl⟩
    · exact .inr ⟨_, _, .returnAddress hp, rfl⟩
  | ret =>
    obtain ⟨sp', hs, rfl⟩ | ⟨addr, hs, rfl⟩ := execRet_next h
    · exact .inl (.ret hs)
    · obtain ⟨rfl, -, hp⟩ := spInc_error hs
      exact .inr ⟨_, _, .spAbove (.inl rfl) hp, rfl⟩
  | jmp a =>
    obtain ⟨r, hr, rfl⟩ | hf := execJmp_next h
    · exact .inl (.jmp hr)
    · exact .inr (hf.faultOf (.head _))
  | jeq a =>
    obtain ⟨r, hr, rfl⟩ | hf := execJeq_next h
    · split
      · next he => exact .inl (.jeqTaken hr he)
      · next he => exact .inl (.jeqNotTaken hr (Bool.eq_false_of_not_eq_true he))
    · exact .inr (hf.faultOf (.head _))
  | jne a =>
    obtain ⟨r, hr, rfl⟩ | hf := execJne_next h
    · split
      · next he => exact .inl (.jneNotTaken hr he)
      · next he => exact .inl (.jneTaken hr (Bool.eq_false_of_not_eq_true he))
    · exact .inr (hf.faultOf (.head _))

/-- An instruction has as many operand bytes as its mnemonic says (R47, R49). -/
theorem arity_mnemonic (i : Instr) : i.mnemonic.arity = i.operands.length := by cases i <;> rfl

/-! What a completed instruction leaves unchanged, field by field. -/

section Completes
variable {i : Instr} {s t : State}

theorem Completes.resetHigh (h : Completes s i t) : t.resetHigh = s.resetHigh := by cases h <;> simp

theorem Completes.cfg (h : Completes s i t) : t.cfg = s.cfg := by cases h <;> simp

theorem Completes.fault (h : Completes s i t) : t.fault = s.fault := by cases h <;> simp

theorem Completes.run (h : Completes s i t) (hi : i ≠ .hlt) : t.run = s.run := by
  cases h with
  | hlt => contradiction
  | _ => simp

theorem Completes.fl (h : Completes s i t) (hi : ∀ a b, i ≠ .cmp a b) : t.fl = s.fl := by
  cases h with
  | cmp => simp at hi
  | _ => simp

/-- A completed instruction leaves memory as it was, or is a PUSH or a CALL that stored one byte at the new SP. -/
theorem Completes.mem_cases (h : Completes s i t) :
    t.mem = s.mem ∨
      ∃ a sp' v, (i = .push a ∨ i = .call a) ∧ spDec s.cfg.spRange s.sp = .ok sp' ∧ t.sp = sp' ∧
        t.mem = memSet s.mem sp'.toNat v := by
  cases h with
  | push hr hs => exact .inr ⟨_, _, _, .inl rfl, hs, by simp, rfl⟩
  | call hr hs hp => exact .inr ⟨_, _, _, .inr rfl, hs, by simp, rfl⟩
  | _ => exact .inl rfl

theorem Completes.mem (h : Completes s i t) (hpush : ∀ a, i ≠ .push a) (hcall : ∀ a, i ≠ .call a) :
    t.mem = s.mem := by
  obtain hm | ⟨a, -, -, hi | hi, -⟩ := h.mem_cases
  · exact hm
  · exact absurd hi (hpush a)
  · exact absurd hi (hcall a)

/-- A completed instruction leaves the output stream as it was, or is a PRN that appended its register. -/
theorem Completes.out_cases (h : Completes s i t) :
    t.out = s.out ∨ ∃ a, i = .prn a ∧ a.toNat ≤ 7 ∧ t.out = s.out ++ [s.regAt a] := by
  cases h with
  | @prn a r hr => exact .inr ⟨a, rfl, by omega, by simp [State.regAt_reg hr]⟩
  | _ => exact .inl rfl

theorem Completes.out (h : Completes s i t) (hi : ∀ a, i ≠ .prn a) : t.out = s.out := by
  obtain ho | ⟨a, hprn, -⟩ := h.out_cases
  · exact ho
  · exact absurd hprn (hi a)

/-- A register R15 does not list as written keeps its value. -/
theorem Completes.readReg (h : Completes s i t) {r : Fin 8} (hr : r.val ∉ i.writesRegs) :
    t.readReg r = s.readReg r := by
  have hne {q : Fin 8} (hq : q.val ∈ i.writesRegs) : q ≠ r := by
    rintro rfl
    exact hr hq
  cases h with
  | ldi hq | mul hq _ => exact s.readReg_writeReg_ne _ (hne (List.mem_singleton.2 hq))
  | push | call | ret => exact State.readReg_writeReg_ne _ _ (hne (q := spIndex) (.head _))
  | pop hq hs =>
    calc
      _ = (s.writeReg _ _).readReg r := State.readReg_writeReg_ne _ _ (hne (q := spIndex) (.tail _ (.head _)))
      _ = s.readReg r := s.readReg_writeReg_ne _ (hne (List.mem_cons.2 (.inl hq)))
  | _ => rfl

/-- The flags stay mutually exclusive (R20): only CMP replaces them, and a comparison sets exactly one. -/
theorem Completes.flagsExclusive (h : Completes s i t) (hf : flagsExclusive s.fl) : flagsExclusive t.fl := by
  cases h with
  | cmp => exact .inr (aluCmp_cases _ _)
  | _ => exact hf

/-- From an instruction that lies within memory the pc moves to 256 at most (R17, R69). -/
theorem Completes.pc_le (h : Completes s i t) (hp : s.pc + i.mnemonic.arity ≤ 255) : t.pc ≤ 256 := by
  have jump_le (b : Byte) : b.toNat ≤ 256 := (byte_inRange b).trans (by decide)
  rw [arity_mnemonic] at hp
  cases h with
  | hlt => exact hp.trans (by decide)
  | call | ret | jmp | jeqTaken | jneTaken => exact jump_le _
  | _ => exact Nat.succ_le_succ hp

/-- Every store is at a byte's address, so memory keeps its canonical form (R31). -/
theorem Completes.memWf (h : Completes s i t) (hw : memWf s.mem) : memWf t.mem := by
  obtain hm | ⟨-, sp', v, -, -, -, hm⟩ := h.mem_cases
  · rwa [hm]
  · rw [hm]
    exact memSet_wf v hw (byte_inRange sp')

end Completes

/-! The invariant, kept by each of the things a step can do. -/

/-- A fetched instruction's fault has a detail R106 allows. -/
theorem FaultOf.legal {s : State} {i : Instr} {k : FaultKind} {d : Int} (h : FaultOf s i k d)
    (hp : s.pc + i.mnemonic.arity ≤ 255) (fpc : Nat) : faultLegal ⟨k, fpc, d⟩ = true := by
  cases h with
  | @register _ op hop h =>
    have := byte_inRange op
    simp only [faultLegal, decide_eq_true_eq]
    omega
  | spBelow => rfl
  | spAbove => rfl
  | returnAddress h =>
    rw [arity_mnemonic, Instr.operands, List.length_singleton] at hp
    simp only [faultLegal, decide_eq_true_eq]
    omega

theorem State.Inv.enterFault {s : State} (h : s.Inv) (hr : s.resetHigh = false) {k : FaultKind} {d : Int}
    (hl : faultLegal ⟨k, s.pc, d⟩ = true) : (s.enterFault k d).Inv := by
  obtain ⟨hmem, hpc, hfl, -, hmap, -⟩ := h
  exact ⟨hmem, hpc, hfl, by simp [runFaultAgree, hl], hmap, by simp [hr]⟩

/-- A running core has no fault record (R25). -/
theorem State.Inv.fault_eq_none {s : State} (h : s.Inv) (hr : s.run = .running) : s.fault = none := by
  obtain ⟨-, -, -, ha, -⟩ := h
  cases hf : s.fault with
  | none => rfl
  | some r => simp [runFaultAgree, hr, hf] at ha

/-- A completed instruction leaves a running core running, or halts it at the HLT's address (R70). -/
theorem Completes.runFaultAgree {i : Instr} {s t : State} (h : Completes s i t) (hr : s.run = .running)
    (hf : s.fault = none) (hp : s.pc + i.mnemonic.arity ≤ 255) : runFaultAgree t = true := by
  cases h with
  | hlt =>
    simp only [Machine.runFaultAgree, State.halt_run, State.halt_fault, hf]
    exact decide_eq_true hp
  | _ => simp [Machine.runFaultAgree, hr, hf]

theorem Completes.inv {i : Instr} {s t : State} (h : Completes s i t) (hi : s.Inv) (hr : s.Ready)
    (hp : s.pc + i.mnemonic.arity ≤ 255) : t.Inv := by
  have hf := hi.fault_eq_none hr.2
  obtain ⟨hmem, -, hfl, -, hmap, -⟩ := hi
  exact ⟨h.memWf hmem, h.pc_le hp, h.flagsExclusive hfl, h.runFaultAgree hr.2 hf hp, h.cfg ▸ hmap,
    by simp [h.resetHigh, hr.1]⟩

/-! What the fetch finds, by where the pc stands. -/

theorem length_bytesFrom (m : Memory) (a n : Nat) : (bytesFrom m a n).length = min n (256 - a) := by
  induction n generalizing a with
  | zero => simp [bytesFrom]
  | succ n ih =>
    simp only [bytesFrom, topAddress]
    split
    · rw [List.length_cons, ih]
      omega
    · rw [List.length_nil]
      omega

/-- With too few bytes left the first missing operand byte is named (R66). -/
theorem decodeOperands_short {m : Mnemonic} {bytes : List Byte} (h : bytes.length < m.arity) :
    decodeOperands m bytes = .missingOperand (bytes.length + 1) := by
  match bytes with
  | [] | [_] | _ :: _ :: _ =>
    cases m <;> simp_all [Mnemonic.arity, Mnemonic.format, Format.arity, decodeOperands, takeOne, takeTwo]

/-- The first operand byte missing from memory is the one at address 256 (R66, R69). -/
theorem fetch_missing {s : State} {m : Mnemonic} (hp : s.pc ≤ 255)
    (e : s.cfg.opcodeMap.lookup (memGet s.mem s.pc) = some m) (h : 255 < s.pc + m.arity) :
    s.fetch = .missingOperand (256 - s.pc) := by
  have h2 : m.arity ≤ 2 := by cases m <;> decide
  rw [fetch_recognized hp e, decodeOperands_short] <;> rw [length_bytesFrom]
  · congr 1
    omega
  · omega

/-- Everything a fetch can find: no opcode byte above address 255, and otherwise an unrecognized byte, an instruction,
or an operand byte missing at address 256 (R64 to R66). -/
theorem fetch_cases (s : State) :
    (255 < s.pc ∧ s.fetch = .noOpcode) ∨ (∃ opc, s.fetch = .unrecognized opc) ∨
      (∃ i rest, s.fetch = .instr i rest) ∨ ∃ n, s.fetch = .missingOperand n ∧ s.pc + n = 256 := by
  by_cases hp : s.pc ≤ 255
  · cases e : s.cfg.opcodeMap.lookup (memGet s.mem s.pc) with
    | none => exact .inr (.inl ⟨_, fetch_unrecognized hp (lookup_eq_none.1 e)⟩)
    | some m =>
      by_cases h : s.pc + m.arity ≤ 255
      · obtain ⟨rest, hd⟩ := decodeOperands_fits s m h
        exact .inr (.inr (.inl ⟨_, rest, (fetch_recognized hp e).trans hd⟩))
      · exact .inr (.inr (.inr ⟨_, fetch_missing hp e (by omega), by omega⟩))
  · refine .inl ⟨by omega, ?_⟩
    simp [State.fetch, window_none (Nat.not_le.1 hp), decode]

theorem pc_of_fetch_noOpcode {s : State} (h : s.fetch = .noOpcode) : 255 < s.pc := by
  obtain ⟨hp, -⟩ | ⟨_, e⟩ | ⟨_, _, e⟩ | ⟨_, e, -⟩ := fetch_cases s
  · exact hp
  all_goals simp [e] at h

theorem pc_of_fetch_missingOperand {s : State} {n : Nat} (h : s.fetch = .missingOperand n) : s.pc + n = 256 := by
  obtain ⟨-, e⟩ | ⟨_, e⟩ | ⟨_, _, e⟩ | ⟨k, e, hk⟩ := fetch_cases s
  case inr.inr.inr =>
    obtain rfl : k = n := by simpa [e] using h
    exact hk
  all_goals simp [e] at h

/-! Non-interference: an instruction does not see a change of registers R15 does not list for it, nor of flags it does
not use (R15, R22). Both are one law: running after such a change is changing after running. -/

/-- A change of the registers by `g` and of the flags by `φ`, and of nothing else. -/
def State.change (g : Vector Byte 8 → Vector Byte 8) (φ : Flags → Flags) (s : State) : State :=
  { s with regs := g s.regs, fl := φ s.fl }

@[simp] theorem State.change_pc (g : Vector Byte 8 → Vector Byte 8) (φ : Flags → Flags) (s : State) :
    (s.change g φ).pc = s.pc := rfl
@[simp] theorem State.change_fl (g : Vector Byte 8 → Vector Byte 8) (φ : Flags → Flags) (s : State) :
    (s.change g φ).fl = φ s.fl := rfl
@[simp] theorem State.change_mem (g : Vector Byte 8 → Vector Byte 8) (φ : Flags → Flags) (s : State) :
    (s.change g φ).mem = s.mem := rfl
@[simp] theorem State.change_cfg (g : Vector Byte 8 → Vector Byte 8) (φ : Flags → Flags) (s : State) :
    (s.change g φ).cfg = s.cfg := rfl

theorem State.storeByte_change (g : Vector Byte 8 → Vector Byte 8) (φ : Flags → Flags) (s : State) (a : Nat)
    (v : Byte) : (s.change g φ).storeByte a v = (s.storeByte a v).change g φ := rfl

theorem State.setFl_change (g : Vector Byte 8 → Vector Byte 8) {φ : Flags → Flags} (s : State) {f : Flags}
    (h : φ f = f) : (s.change g φ).setFl f = (s.setFl f).change g φ := by
  simp [State.change, State.setFl, h]

theorem State.change_writeReg (r : Fin 8) (v : Byte) :
    State.change (·.set r v) id = fun s => s.writeReg r v := rfl

theorem State.change_setFl (f : Flags) : State.change id (fun _ => f) = fun s => s.setFl f := rfl

/-- On `s` the instruction `i` cannot tell the change by `g` and `φ`: it leaves alone what `i` reads, and a write of `i`
can be made before it or after it. -/
structure Unseen (g : Vector Byte 8 → Vector Byte 8) (φ : Flags → Flags) (i : Instr) (s : State) : Prop where
  read : ∀ q : Fin 8, q.val ∈ i.usesRegs → (s.change g φ).readReg q = s.readReg q
  write : ∀ (q : Fin 8) (v : Byte), q.val ∈ i.usesRegs →
    ∀ t : State, (t.change g φ).writeReg q v = (t.writeReg q v).change g φ
  cmp : i.mnemonic = .cmp → ∀ f, φ f = f
  jump : i.mnemonic = .jeq ∨ i.mnemonic = .jne → (φ s.fl).e = s.fl.e

section Unseen
variable {g : Vector Byte 8 → Vector Byte 8} {φ : Flags → Flags} {s : State}

/-- An instruction to which a change is unseen runs the same before it and after it. -/
theorem exec_change {i : Instr} (h : Unseen g φ i s) :
    exec i (s.change g φ) = mapNext (State.change g φ) (exec i s) := by
  have hfault (k : FaultKind) (d : Int) : (s.enterFault k d).change g φ = (s.change g φ).enterFault k d := rfl
  obtain ⟨hread, hwrite, hcmp, hjump⟩ := h
  cases i with
  | hlt => rfl
  | ldi a imm =>
    simp only [exec, execLdi]
    refine checkReg_mapNext hfault fun r hr => ?_
    rw [hwrite r imm (by simp [Instr.usesRegs, hr])]
    rfl
  | prn a =>
    simp only [exec, execPrn]
    refine checkReg_mapNext hfault fun r hr => ?_
    rw [hread r (by simp [Instr.usesRegs, hr])]
    rfl
  | mul a b =>
    simp only [exec, execMul]
    refine checkReg_mapNext hfault fun r hr => checkReg_mapNext hfault fun q hq => ?_
    have hrr : r.val ∈ (Instr.mul a b).usesRegs := by simp [Instr.usesRegs, hr]
    rw [runAlu_mul, runAlu_mul, hread r hrr, hread q (by simp [Instr.usesRegs, hq]), hwrite r _ hrr]
    rfl
  | cmp a b =>
    simp only [exec, execCmp]
    refine checkReg_mapNext hfault fun r hr => checkReg_mapNext hfault fun q hq => ?_
    rw [runAlu_cmp, runAlu_cmp, hread r (by simp [Instr.usesRegs, hr]), hread q (by simp [Instr.usesRegs, hq]),
      State.setFl_change _ s (hcmp rfl _)]
    rfl
  | push a =>
    have hspUsed : spIndex.val ∈ (Instr.push a).usesRegs := by simp [Instr.usesRegs]
    simp only [exec, execPush, memWrite_byte, State.sp, State.change_cfg, hread spIndex hspUsed]
    refine checkReg_mapNext hfault fun r hr => checkSp_mapNext hfault fun sp' => ?_
    rw [hread r (by simp [Instr.usesRegs, hr]), State.storeByte_change, State.writeSp_eq_writeReg, hwrite _ _ hspUsed]
    rfl
  | pop a =>
    have hspUsed : spIndex.val ∈ (Instr.pop a).usesRegs := by simp [Instr.usesRegs]
    simp only [exec, execPop, memRead_byte, State.sp, State.change_cfg, State.change_mem, hread spIndex hspUsed]
    refine checkReg_mapNext hfault fun r hr => checkSp_mapNext hfault fun sp' => ?_
    rw [hwrite r _ (by simp [Instr.usesRegs, hr]), State.writeSp_eq_writeReg, hwrite _ _ hspUsed]
    rfl
  | call a =>
    have hspUsed : spIndex.val ∈ (Instr.call a).usesRegs := by simp [Instr.usesRegs]
    simp only [exec, execCall, memWrite_byte, State.sp, State.change_cfg, State.change_pc, hread spIndex hspUsed]
    refine checkReg_mapNext hfault fun r hr => checkSp_mapNext hfault fun sp' => checkAddress_mapNext hfault fun v => ?_
    rw [hread r (by simp [Instr.usesRegs, hr]), State.storeByte_change, State.writeSp_eq_writeReg, hwrite _ _ hspUsed]
    rfl
  | ret =>
    have hspUsed : spIndex.val ∈ Instr.ret.usesRegs := by simp [Instr.usesRegs]
    simp only [exec, execRet, memRead_byte, State.sp, State.change_cfg, State.change_mem, hread spIndex hspUsed]
    refine checkSp_mapNext hfault fun sp' => ?_
    rw [State.writeSp_eq_writeReg, hwrite _ _ hspUsed]
    rfl
  | jmp a =>
    simp only [exec, execJmp]
    refine checkReg_mapNext hfault fun r hr => ?_
    rw [hread r (by simp [Instr.usesRegs, hr])]
    rfl
  | jeq a =>
    simp only [exec, execJeq, State.change_fl, hjump (.inl rfl)]
    refine checkReg_mapNext hfault fun r hr => ?_
    rw [hread r (by simp [Instr.usesRegs, hr])]
    split <;> rfl
  | jne a =>
    simp only [exec, execJne, State.change_fl, hjump (.inr rfl)]
    refine checkReg_mapNext hfault fun r hr => ?_
    rw [hread r (by simp [Instr.usesRegs, hr])]
    split <;> rfl

end Unseen

/-- A write to a register R15 does not list may be made before the instruction or after it. -/
theorem exec_writeReg {i : Instr} {r : Fin 8} {s : State} (h : r.val ∉ i.usesRegs) (v : Byte) :
    exec i (s.writeReg r v) = mapNext (fun t => t.writeReg r v) (exec i s) := by
  have hne {q : Fin 8} (hq : q.val ∈ i.usesRegs) : r ≠ q := by
    rintro rfl
    exact h hq
  have hu : Unseen (·.set r v) id i s :=
    { read := fun q hq => s.readReg_writeReg_ne v (hne hq)
      write := fun q w hq t => t.writeReg_comm v w (hne hq)
      cmp := fun _ _ => rfl
      jump := fun _ => rfl }
  have hc := exec_change hu
  rwa [State.change_writeReg] at hc

/-- New flags are seen only by CMP, JEQ and JNE, and by JEQ and JNE only where E differs (R22). -/
theorem exec_setFl {i : Instr} {s : State} {f : Flags} (hcmp : i.mnemonic ≠ .cmp)
    (hjump : i.mnemonic = .jeq ∨ i.mnemonic = .jne → f.e = s.fl.e) :
    exec i (s.setFl f) = mapNext (fun t => t.setFl f) (exec i s) := by
  have hu : Unseen id (fun _ => f) i s :=
    { read := fun _ _ => rfl
      write := fun _ _ _ _ => rfl
      cmp := fun h => absurd h hcmp
      jump := hjump }
  have hc := exec_change hu
  rwa [State.change_setFl] at hc

/-! The flags as a byte. -/

/-- The bits of FL as a byte (R21). -/
theorem getLsbD_flByte (f : Flags) (k : Nat) :
    (flByte f).getLsbD k = if k = 0 then f.e else if k = 1 then f.g else if k = 2 then f.l else false := by
  change (0#5 ++ BitVec.ofBool f.l ++ BitVec.ofBool f.g ++ BitVec.ofBool f.e : BitVec (5 + 1 + 1 + 1)).getLsbD k = _
  simp only [BitVec.getLsbD_append]
  rcases k with _ | _ | _ | k <;> simp

end Sys2Proof.Machine

namespace Sys2Proof.Proofs

open Sys2Proof.Machine

/-! The statements of 10_state.md settled. First the invariant. -/

/-- Settles O42: a step runs a fetched instruction, which completes or faults, or faults on its fetch, or hangs; each
keeps the invariant. -/
theorem stepKeepsTheInvariant : Obligations.StepKeepsTheInvariant := by
  intro s t hi h
  obtain ⟨hr, hcases⟩ := step_next h
  obtain ⟨i, rest, hfetch, h⟩ | ⟨hfetch, rfl⟩ | ⟨opc, -, -, rfl⟩ | ⟨-, -, -, rfl⟩ | ⟨n, hfetch, rfl⟩ := hcases
  · have hp := fetch_within_memory hfetch
    obtain hc | ⟨k, d, hf, rfl⟩ := exec_next h
    · exact hc.inv hi hr hp
    · exact hi.enterFault hr.1 (hf.legal hp s.pc)
  · have hpc : s.pc = 256 := by
      have := pc_of_fetch_noOpcode hfetch
      obtain ⟨-, hle, -⟩ := hi
      omega
    exact hi.enterFault hr.1 (by simp [faultLegal, hpc])
  · have hb := byte_inRange opc
    refine hi.enterFault hr.1 ?_
    simp only [faultLegal, decide_eq_true_eq]
    omega
  · exact hi
  · exact hi.enterFault hr.1 (by simp [faultLegal, pc_of_fetch_missingOperand hfetch])

/-! The frames of 10_state.md: a fault entry changes only the run state and the fault record, and a completed
instruction is described by the field lemmas of `Completes`. -/

/-- Settles O29: none of the six lists a written register in R15, and none is a PUSH or a CALL. -/
theorem nonWriterFrame : Obligations.NonWriterFrame := by
  intro i a b s t hi h
  obtain hc | ⟨k, d, -, rfl⟩ := exec_next h
  · have hmem : t.mem = s.mem := by rcases hi with rfl | rfl | rfl | rfl | rfl | rfl <;> exact hc.mem nofun nofun
    refine ⟨fun r => hc.readReg ?_, fun x => by rw [hmem], fun hne => hc.fl ?_, fun hne => hc.out ?_, hc.resetHigh,
      hc.cfg, .inl ⟨hc.fault, hc.run⟩⟩
    · rcases hi with rfl | rfl | rfl | rfl | rfl | rfl <;> exact List.not_mem_nil
    · rintro c d rfl
      simp_all
    · rintro c rfl
      simp_all
  · exact ⟨fun _ => rfl, fun _ => rfl, fun _ => rfl, fun _ => rfl, rfl, rfl, .inr ⟨k, d, rfl⟩⟩

/-- Settles O30: R15 lists only op1 as written. -/
theorem registerWriterFrame : Obligations.RegisterWriterFrame := by
  intro i a b s t hi h
  obtain hc | ⟨k, d, -, rfl⟩ := exec_next h
  · rcases hi with rfl | rfl <;>
      exact ⟨fun r hr => hc.readReg (by simpa [Instr.writesRegs] using hr), fun x => by rw [hc.mem nofun nofun],
        hc.fl nofun, hc.out nofun, hc.resetHigh, hc.cfg, .inl ⟨hc.run nofun, hc.fault⟩⟩
  · exact ⟨fun _ _ => rfl, fun _ => rfl, rfl, rfl, rfl, rfl, .inr ⟨k, d, rfl⟩⟩

/-- Settles O31: the one store of a completed PUSH or CALL is at the decremented SP, so there is none where the
decrement faults. -/
theorem stackWriterFrame : Obligations.StackWriterFrame := by
  intro i a s t hi h
  obtain hc | ⟨k, d, -, rfl⟩ := exec_next h
  · have hcell : ∀ sp', spDec s.cfg.spRange s.sp = .ok sp' → ∀ x, x ≠ sp'.toNat →
        memGet t.mem x = memGet s.mem x := by
      intro sp' hs x hx
      obtain hm | ⟨-, sp'', v, -, hs', -, hm⟩ := hc.mem_cases
      · rw [hm]
      · obtain rfl : sp' = sp'' := by simpa [hs] using hs'
        rw [hm, memGet_memSet_ne _ _ hx]
    have hnone : ∀ addr, spDec s.cfg.spRange s.sp = .error addr → ∀ x, memGet t.mem x = memGet s.mem x := by
      intro addr hs x
      obtain hm | ⟨-, sp'', v, -, hs', -, -⟩ := hc.mem_cases
      · rw [hm]
      · simp [hs] at hs'
    rcases hi with rfl | rfl <;>
      exact ⟨fun r hr => hc.readReg (by simpa [Instr.writesRegs, Fin.ext_iff] using hr), hcell, hnone, hc.fl nofun,
        hc.out nofun, hc.resetHigh, hc.cfg, .inl ⟨hc.run nofun, hc.fault⟩⟩
  · exact ⟨fun _ _ => rfl, fun _ _ _ _ => rfl, fun _ _ _ => rfl, rfl, rfl, rfl, rfl, .inr ⟨k, d, rfl⟩⟩

/-- Settles O32: R15 lists only op1 and R7 as written, and neither instruction stores. -/
theorem stackReaderFrame : Obligations.StackReaderFrame := by
  intro i a s t hi h
  obtain hc | ⟨k, d, -, rfl⟩ := exec_next h
  · rcases hi with rfl | rfl <;>
      refine ⟨fun r hr hra => hc.readReg ?_, fun x => by rw [hc.mem nofun nofun], hc.fl nofun, hc.out nofun,
        hc.resetHigh, hc.cfg, .inl ⟨hc.run nofun, hc.fault⟩⟩
    · simpa [Instr.writesRegs, Fin.ext_iff] using ⟨hra rfl, Fin.val_ne_of_ne hr⟩
    · simpa [Instr.writesRegs] using Fin.val_ne_of_ne hr
  · exact ⟨fun _ _ _ => rfl, fun _ => rfl, rfl, rfl, rfl, rfl, .inr ⟨k, d, rfl⟩⟩

/-! Whole-machine rules: registers, output, flags. -/

/-- Settles O36, by the contrapositive: an unlisted register keeps its value. -/
theorem registersWrittenAreListed : Obligations.RegistersWrittenAreListed := by
  intro i s t r h hne
  by_contra hr
  obtain hc | ⟨k, d, -, rfl⟩ := exec_next h
  · exact hne (hc.readReg hr)
  · exact hne rfl

/-- Settles O34: of all a step can do, only a completed PRN touches the output stream. -/
theorem onlyPrnEmits : Obligations.OnlyPrnEmits := by
  refine ⟨rfl, fun a s t ha h => ?_, fun s t h => ?_⟩
  · obtain ⟨r, hr, rfl⟩ | ⟨hbad, -⟩ := execPrn_next h
    · simp [State.regAt_reg hr]
    · omega
  · obtain ⟨-, ⟨i, rest, hfetch, h⟩ | ⟨-, rfl⟩ | ⟨-, -, -, rfl⟩ | ⟨-, -, -, rfl⟩ | ⟨-, -, rfl⟩⟩ := step_next h
    · obtain hc | ⟨k, d, -, rfl⟩ := exec_next h
      · refine hc.out_cases.imp_right ?_
        rintro ⟨a, rfl, ha, ho⟩
        exact ⟨a, rest, hfetch, ha, ho⟩
      · exact .inl rfl
    all_goals exact .inl rfl

/-- Settles O37, by the law of unseen changes. -/
theorem unlistedRegistersDoNotMatter : Obligations.UnlistedRegistersDoNotMatter :=
  fun _ _ _ v h => exec_writeReg h v

/-- Settles O33: CMP overwrites the old flags, and to the others a change of flags is unseen. -/
theorem flagsWrittenByCmpReadByJumps : Obligations.FlagsWrittenByCmpReadByJumps := by
  refine ⟨fun a b s f ha hb => ?_, fun i s t hi h => ?_, fun i s f hcmp hjeq hjne => ?_, fun a s f he => ⟨?_, ?_⟩⟩
  · obtain ⟨r, hr⟩ := exists_reg ha
    obtain ⟨q, hq⟩ := exists_reg hb
    simp only [exec, execCmp, checkReg_reg hr, checkReg_reg hq]
    rfl
  · obtain hc | ⟨k, d, -, rfl⟩ := exec_next h
    · exact hc.fl hi
    · rfl
  · refine exec_setFl ?_ ?_ <;> cases i <;> simp_all [Instr.mnemonic]
  · exact exec_setFl (by simp [Instr.mnemonic]) fun _ => he
  · exact exec_setFl (by simp [Instr.mnemonic]) fun _ => he

/-! Reset and the flag byte. -/

/-- Settles O43, part by part. -/
theorem resetMeetsTheInvariant : Obligations.ResetMeetsTheInvariant :=
  ⟨reset_mem_wf, Nat.zero_le _, .inl rfl, rfl, by decide, nofun⟩

/-- Settles O53, field by field. -/
theorem resetState : Obligations.ResetState := by
  refine ⟨rfl, rfl, ?_, rfl, rfl, rfl, rfl, memGet_nil, rfl, rfl, rfl⟩
  decide

/-- Settles O52, from the value of each bit. -/
theorem flagByteLayout : Obligations.FlagByteLayout := by
  intro f
  refine ⟨getLsbD_flByte f 0, getLsbD_flByte f 1, getLsbD_flByte f 2, fun k hk => ?_⟩
  rw [getLsbD_flByte, if_neg (by omega), if_neg (by omega), if_neg (by omega)]

end Sys2Proof.Proofs

namespace Sys2Proof.Machine

/-! The rules of 20_memory.md: what a fetch reads and what the loader places. -/

/-- Byte `k` of the window is the one memory holds at pc + k, where there is such an address (R43, R64). -/
theorem window_getElem? (s : State) (k : Nat) :
    s.window[k]? = if k < 3 ∧ s.pc + k ≤ 255 then some (memGet s.mem (s.pc + k)) else none :=
  bytesFrom_getElem? s.mem s.pc maxLength k

/-- At an opcode byte no mnemonic has, a ready core under the policy `fault` reports that byte (R53, R107). -/
theorem step_unrecognized {s : State} (h : s.Ready) (hu : s.cfg.unknownOpcode = .fault) (hp : s.pc ≤ 255)
    (hm : ∀ m, s.cfg.opcodeMap.byteOf m ≠ memGet s.mem s.pc) :
    step s = .next (s.enterFault .unrecognizedOpcode (memGet s.mem s.pc).toNat) := by
  rw [step_ready h, fetch_unrecognized hp hm]
  simp only [dispatchFetched, unknownOpcode, hu]
  rfl

/-! Placing an image: the loader's stores one after another are `placeBytes`. -/

/-- Placed bytes that fit in memory are found from `a` on; every other cell is as before. -/
theorem memGet_placeBytes {m : Memory} {a : Nat} {bs : List Byte} (h : a + bs.length ≤ 256) (k : Nat) :
    memGet (placeBytes m a bs) k = if a ≤ k then bs.getD (k - a) (memGet m k) else memGet m k := by
  induction bs generalizing m a with
  | nil => simp [placeBytes]
  | cons b bs ih =>
    rw [List.length_cons] at h
    rw [placeBytes, if_pos (by rw [topAddress_eq]; omega), ih (by omega), memGet_memSet]
    obtain hlt | rfl | hgt := Nat.lt_trichotomy k a
    · simp [Nat.not_le.2 hlt, Nat.ne_of_lt hlt, show ¬ a + 1 ≤ k by omega]
    · simp
    · simp [show a + 1 ≤ k from hgt, Nat.le_of_lt hgt, Nat.ne_of_gt hgt, show k - a = k - (a + 1) + 1 by omega]

theorem hostLoad_high {s : State} (h : s.resetHigh = true) (addr data : Byte) :
    hostLoad addr data s = s.storeByte addr.toNat data :=
  if_pos h

/-- While `reset` is high, loading an image that fits places it and changes nothing else (R128). -/
theorem loadFrom_high {s : State} {a : Nat} {image : List Byte} (hs : s.resetHigh = true)
    (h : a + image.length ≤ 256) : loadFrom a image s = { s with mem := placeBytes s.mem a image } := by
  induction image generalizing s a with
  | nil => rfl
  | cons b bs ih =>
    rw [List.length_cons] at h
    have ha : (BitVec.ofNat 8 a).toNat = a := by
      rw [BitVec.toNat_ofNat]
      omega
    rw [loadFrom, hostLoad_high hs, ha, ih (s := s.storeByte a b) hs (by omega), placeBytes,
      if_pos (by rw [topAddress_eq]; omega)]
    rfl

/-- Boot from any state gives the reset state with the image placed from address 0 and the parameters kept (R131). -/
theorem boot_fits {image : List Byte} (h : image.length ≤ 256) (s : State) :
    boot image s = some { State.reset with mem := placeBytes [] 0 image, cfg := s.cfg } := by
  have hraise : setReset true (setReset false s) = resetState s := rfl
  rw [boot, if_pos h, hraise, loadFrom_high rfl (by omega)]
  rfl

end Sys2Proof.Machine

namespace Sys2Proof.Proofs

open Sys2Proof.Machine

/-! The statements of 20_memory.md settled. -/

/-- Settles O35: of all a step can do, only a completed PUSH or CALL stores a byte. -/
theorem onlyPushAndCallWriteMemory : Obligations.OnlyPushAndCallWriteMemory := by
  intro s t h
  obtain ⟨-, ⟨i, rest, hfetch, h⟩ | ⟨-, rfl⟩ | ⟨-, -, -, rfl⟩ | ⟨-, -, -, rfl⟩ | ⟨-, -, rfl⟩⟩ := step_next h
  · obtain hc | ⟨k, d, -, rfl⟩ := exec_next h
    · refine hc.mem_cases.imp_right ?_
      rintro ⟨a, sp', v, rfl | rfl, hs⟩
      · exact ⟨a, rest, sp', v, .inl hfetch, hs⟩
      · exact ⟨a, rest, sp', v, .inr hfetch, hs⟩
    · exact .inl rfl
  all_goals exact .inl rfl

/-- Settles O56: the state `boot` answers, with its memory read cell by cell. -/
theorem bootPlacesTheImage : Obligations.BootPlacesTheImage := by
  refine ⟨fun image s h => ?_, fun image s h => if_neg (Nat.not_le.2 h)⟩
  exact ⟨_, boot_fits h s, ⟨rfl, rfl⟩, memGet_placeBytes (by omega), rfl⟩

/-- Settles O15: the window is memory read at the pc, and a store changes one cell of it. -/
theorem fetchSeesStoredBytes : Obligations.FetchSeesStoredBytes := by
  intro s n v hn hp
  refine ⟨?_, fun k hk => ?_⟩
  · simp [window_getElem?, hn, hp]
  · have hne : s.pc + k ≠ s.pc + n := by omega
    simp [window_getElem?, memGet_memSet_ne s.mem v hne]

/-- Settles O57: the byte at address 0 is 0, which the default map gives no mnemonic. -/
theorem emptyImageFaultsAtOnce : Obligations.EmptyImageFaultsAtOnce := by
  intro s hcfg
  refine ⟨_, boot_fits (Nat.zero_le _) s, step_unrecognized ⟨rfl, rfl⟩ ?_ (Nat.zero_le _) fun m => ?_⟩
  · rw [hcfg]
    rfl
  · rw [hcfg]
    cases m <;> decide

end Sys2Proof.Proofs

namespace Sys2Proof

/-! The rules of 30_encoding.md: what the opcode lookup finds, what the operands of an instruction are, and what the
decoder does with both. -/

theorem defaultOpcodeMap_distinct : defaultOpcodeMap.Distinct := by decide

theorem decode_recognized {map : OpcodeMap} {opc : Byte} {m : Mnemonic} (h : map.lookup opc = some m)
    (rest : List Byte) : decode map (opc :: rest) = decodeOperands m rest := by
  simp [decode, h]

theorem decode_unrecognized {map : OpcodeMap} {opc : Byte} (h : map.lookup opc = none) (rest : List Byte) :
    decode map (opc :: rest) = .unrecognized opc := by
  simp [decode, h]

/-- An instruction's own operand bytes give it back, whatever follows them (R46, R66). -/
theorem decodeOperands_operands (i : Instr) (rest : List Byte) :
    decodeOperands i.mnemonic (i.operands ++ rest) = .instr i rest := by
  cases i <;> rfl

/-- Any `arity` bytes are the operand bytes of an instruction of the mnemonic: no operand value is refused (R56). -/
theorem exists_operands {m : Mnemonic} {bytes : List Byte} (h : m.arity ≤ bytes.length) :
    ∃ (i : Instr) (rest : List Byte), i.mnemonic = m ∧ bytes = i.operands ++ rest :=
  match m, bytes, h with
  | .hlt, rest, _ => ⟨.hlt, rest, rfl, rfl⟩
  | .ldi, a :: imm :: rest, _ => ⟨.ldi a imm, rest, rfl, rfl⟩
  | .prn, a :: rest, _ => ⟨.prn a, rest, rfl, rfl⟩
  | .mul, a :: b :: rest, _ => ⟨.mul a b, rest, rfl, rfl⟩
  | .cmp, a :: b :: rest, _ => ⟨.cmp a b, rest, rfl, rfl⟩
  | .push, a :: rest, _ => ⟨.push a, rest, rfl, rfl⟩
  | .pop, a :: rest, _ => ⟨.pop a, rest, rfl, rfl⟩
  | .call, a :: rest, _ => ⟨.call a, rest, rfl, rfl⟩
  | .ret, rest, _ => ⟨.ret, rest, rfl, rfl⟩
  | .jmp, a :: rest, _ => ⟨.jmp a, rest, rfl, rfl⟩
  | .jeq, a :: rest, _ => ⟨.jeq a, rest, rfl, rfl⟩
  | .jne, a :: rest, _ => ⟨.jne a, rest, rfl, rfl⟩

/-- Everything operand fetch can give: with too few bytes the first missing one, otherwise an instruction of the
mnemonic whose operands the bytes begin with (R66). -/
theorem decodeOperands_cases (m : Mnemonic) (bytes : List Byte) :
    (bytes.length < m.arity ∧ decodeOperands m bytes = .missingOperand (bytes.length + 1)) ∨
      ∃ (i : Instr) (rest : List Byte),
        i.mnemonic = m ∧ bytes = i.operands ++ rest ∧ decodeOperands m bytes = .instr i rest := by
  obtain hshort | hfits := Nat.lt_or_ge bytes.length m.arity
  · exact .inl ⟨hshort, Machine.decodeOperands_short hshort⟩
  · obtain ⟨i, rest, rfl, rfl⟩ := exists_operands hfits
    exact .inr ⟨i, rest, rfl, rfl, decodeOperands_operands i rest⟩

/-- Operand fetch gives an instruction only from its own operand bytes: no bit of them is ignored (R47). -/
theorem decodeOperands_eq_instr {m : Mnemonic} {bytes rest : List Byte} {i : Instr} :
    decodeOperands m bytes = .instr i rest ↔ i.mnemonic = m ∧ bytes = i.operands ++ rest := by
  constructor
  · intro h
    obtain ⟨-, e⟩ | ⟨j, rest', hj, hb, e⟩ := decodeOperands_cases m bytes
    · simp [e] at h
    · obtain ⟨rfl, rfl⟩ : j = i ∧ rest' = rest := by simpa [e] using h
      exact ⟨hj, hb⟩
  · rintro ⟨rfl, rfl⟩
    exact decodeOperands_operands i rest

/-- Operand fetch never rejects the opcode (R53). -/
theorem decodeOperands_ne_unrecognized (m : Mnemonic) (bytes : List Byte) (opc : Byte) :
    decodeOperands m bytes ≠ .unrecognized opc := by
  obtain ⟨-, e⟩ | ⟨i, rest, -, -, e⟩ := decodeOperands_cases m bytes <;> simp [e]

/-- Decoding undoes encoding, under every map R60 allows. -/
theorem decode_encode {map : OpcodeMap} (h : map.Distinct) (i : Instr) (rest : List Byte) :
    decode map (encode map i ++ rest) = .instr i rest := by
  rw [encode, List.cons_append, decode_recognized (lookup_byteOf h i.mnemonic), decodeOperands_operands]

/-- Encoding undoes decoding, under every map. -/
theorem encode_of_decode {map : OpcodeMap} {bytes rest : List Byte} {i : Instr}
    (h : decode map bytes = .instr i rest) : encode map i ++ rest = bytes := by
  match bytes with
  | [] => simp [decode] at h
  | opc :: bytes =>
    cases e : map.lookup opc with
    | none => simp [decode_unrecognized e] at h
    | some m =>
      rw [decode_recognized e] at h
      obtain ⟨rfl, rfl⟩ := decodeOperands_eq_instr.1 h
      rw [encode, List.cons_append, byteOf_of_lookup e]

theorem decode_eq_unrecognized {map : OpcodeMap} {opc : Byte} {rest : List Byte} :
    decode map (opc :: rest) = .unrecognized opc ↔ map.lookup opc = none := by
  refine ⟨fun h => ?_, fun h => decode_unrecognized h rest⟩
  cases e : map.lookup opc with
  | none => rfl
  | some m =>
    rw [decode_recognized e] at h
    exact absurd h (decodeOperands_ne_unrecognized m rest opc)

/-- An encoding is at most three bytes long (R46). -/
theorem length_encode_le (map : OpcodeMap) (i : Instr) : (encode map i).length ≤ maxLength := by
  cases i <;> simp [encode, Instr.operands, maxLength]

/-- The lookup written out, one comparison per mnemonic in the order of R50. -/
theorem lookup_eq_ite (map : OpcodeMap) (opc : Byte) :
    map.lookup opc =
      if opc = map.hlt then some .hlt else if opc = map.ldi then some .ldi else if opc = map.prn then some .prn
      else if opc = map.mul then some .mul else if opc = map.cmp then some .cmp
      else if opc = map.push then some .push else if opc = map.pop then some .pop
      else if opc = map.call then some .call else if opc = map.ret then some .ret
      else if opc = map.jmp then some .jmp else if opc = map.jeq then some .jeq
      else if opc = map.jne then some .jne else none := by
  have find_cons (m : Mnemonic) (ms : List Mnemonic) :
      (m :: ms).find? (fun m => map.byteOf m == opc) =
        if opc = map.byteOf m then some m else ms.find? fun m => map.byteOf m == opc := by
    by_cases h : opc = map.byteOf m
    · simp [h]
    · simp [h, Ne.symm h]
  simp only [OpcodeMap.lookup, allMnemonics, find_cons, List.find?_nil]
  rfl

end Sys2Proof

namespace Sys2Proof.Machine

/-! A step on an encoded instruction. -/

/-- A ready core runs the instruction it fetched (R63, R67). -/
theorem step_of_fetch {s : State} {i : Instr} {rest : List Byte} (h : s.Ready) (hf : s.fetch = .instr i rest) :
    step s = exec i s := by
  rw [step_ready h, hf]
  rfl

/-- Three bytes at most that lie in memory from the pc on are what the window begins with (R46, R64). -/
theorem prefix_window {s : State} {bytes : List Byte} (hlen : bytes.length ≤ maxLength)
    (h : ∀ (k : Nat) (b : Byte), bytes[k]? = some b → s.pc + k ≤ 255 ∧ memGet s.mem (s.pc + k) = b) :
    bytes <+: s.window := by
  rw [List.prefix_iff_getElem?]
  intro k hk
  obtain ⟨hp, hb⟩ := h k bytes[k] (List.getElem?_eq_getElem hk)
  rw [window_getElem?, if_pos ⟨hk.trans_le hlen, hp⟩, hb]

/-! Totality: a check answers a next state when the rest of the instruction does. -/

/-- The model answers a next state: neither a named stop nor a refusal. -/
abbrev Answers (r : Result) : Prop := ∃ t, r = .next t

theorem checkReg_answers {op : Byte} {s : State} {k : Fin 8 → Result} (h : ∀ r, Answers (k r)) :
    Answers (checkReg op s k) := by
  by_cases ho : op.toNat ≤ 7
  · rw [checkReg_ok ho]
    exact h _
  · exact ⟨_, checkReg_bad (Nat.not_le.1 ho)⟩

theorem checkSp_answers {x : Except Int Byte} {s : State} {k : Byte → Result} (h : ∀ v, Answers (k v)) :
    Answers (checkSp x s k) := by
  cases x with
  | ok v => exact h v
  | error addr => exact ⟨_, checkSp_error addr s k⟩

theorem checkAddress_answers {addr : Nat} {s : State} {k : Nat → Result} (h : ∀ a, Answers (k a)) :
    Answers (checkAddress addr s k) := by
  by_cases ha : addr ≤ 255
  · rw [checkAddress_ok ha]
    exact h addr
  · exact ⟨_, checkAddress_bad (Nat.not_le.1 ha)⟩

/-- Every instruction is a nest of checks around a next state. -/
theorem exec_answers (i : Instr) (s : State) : Answers (exec i s) := by
  cases i with
  | hlt => exact ⟨_, rfl⟩
  | ldi | prn | jmp =>
    simp only [exec, execLdi, execPrn, execJmp]
    exact checkReg_answers fun r => ⟨_, rfl⟩
  | mul | cmp =>
    simp only [exec, execMul, execCmp, runAlu_mul, runAlu_cmp]
    exact checkReg_answers fun r => checkReg_answers fun q => ⟨_, rfl⟩
  | push =>
    simp only [exec, execPush, memWrite_byte]
    exact checkReg_answers fun r => checkSp_answers fun sp' => ⟨_, rfl⟩
  | pop =>
    simp only [exec, execPop, memRead_byte]
    exact checkReg_answers fun r => checkSp_answers fun sp' => ⟨_, rfl⟩
  | call =>
    simp only [exec, execCall, memWrite_byte]
    exact checkReg_answers fun r => checkSp_answers fun sp' => checkAddress_answers fun ra => ⟨_, rfl⟩
  | ret =>
    simp only [exec, execRet, memRead_byte]
    exact checkSp_answers fun sp' => ⟨_, rfl⟩
  | jeq | jne =>
    simp only [exec, execJeq, execJne]
    refine checkReg_answers fun r => ?_
    split <;> exact ⟨_, rfl⟩

theorem unknownOpcode_answers (opc : Byte) (s : State) : Answers (unknownOpcode opc s) := by
  unfold unknownOpcode
  split <;> exact ⟨_, rfl⟩

theorem step_answers {s : State} (h : s.Ready) : Answers (step s) := by
  rw [step_ready h]
  cases s.fetch with
  | instr i rest => exact exec_answers i s
  | unrecognized opc => exact unknownOpcode_answers opc s
  | noOpcode | missingOperand => exact ⟨_, rfl⟩

end Sys2Proof.Machine

namespace Sys2Proof.Proofs

open Sys2Proof.Machine

/-! The statements of 30_encoding.md settled. -/

/-- Settles O3: the opcode byte is recognized, and the operand bytes give the instruction back. -/
theorem decodeOfEncodeIsTheInstruction : Obligations.DecodeOfEncodeIsTheInstruction :=
  fun _ i rest h => decode_encode h i rest

/-- Settles O4: the opcode byte is the mnemonic's, and the operand bytes are the instruction's. -/
theorem encodeOfDecodeIsTheBytes : Obligations.EncodeOfDecodeIsTheBytes :=
  fun _ _ _ _ h => encode_of_decode h

/-- Settles O5, by whether the byte is recognized and how many bytes follow it. -/
theorem decoderIsTotal : Obligations.DecoderIsTotal := by
  intro map opc rest
  refine ⟨decode_eq_unrecognized.trans lookup_eq_none, fun m hm hfits => ?_, fun m hm hshort => ?_⟩
  · obtain ⟨i, rest', rfl, rfl⟩ := exists_operands hfits
    refine ⟨i, rfl, ?_⟩
    rw [decode_recognized hm, decodeOperands_operands, arity_mnemonic, List.drop_left]
  · rw [decode_recognized hm, decodeOperands_short hshort]

/-- Settles O8: the window begins with the encoding, so the fetch gives the instruction back. -/
theorem stepRunsEncodedInstruction : Obligations.StepRunsEncodedInstruction := by
  intro s i hr hd hmem
  obtain ⟨rest, hw⟩ := prefix_window (length_encode_le s.cfg.opcodeMap i) hmem
  have hf : s.fetch = .instr i rest := by rw [State.fetch, ← hw, decode_encode hd]
  exact step_of_fetch hr hf

/-- Settles O14, for a step by what the fetch finds and for an instruction by its checks. -/
theorem everyReadyStepAnswers : Obligations.EveryReadyStepAnswers :=
  ⟨fun _ h => step_answers h, exec_answers⟩

/-- Settles O1: the lookup written out, at the default map's bytes, and the length mnemonic by mnemonic. -/
theorem defaultMapIsTheTable : Obligations.DefaultMapIsTheTable := by
  refine ⟨lookup_eq_ite defaultOpcodeMap, defaultOpcodeMap_distinct, fun m => ?_, by decide⟩
  cases m <;> rfl

/-- Settles O2: each word is the encoding of its instruction under the default map. -/
theorem wordsOfTheSpecDecode : Obligations.WordsOfTheSpecDecode := by
  have word (i : Instr) : decode defaultOpcodeMap (encode defaultOpcodeMap i) = .instr i [] := by
    simpa using decode_encode defaultOpcodeMap_distinct i []
  exact ⟨word .hlt, word (.ldi 5 255), word (.prn 7), word (.mul 0 1), word (.cmp 4 3), word (.push 3), word (.pop 4),
    word (.call 1), word .ret, word (.jmp 2), word (.jeq 6), word (.jne 3)⟩

/-- Settles O6: a recognized byte is its mnemonic's, and each of the twelve has the fields. -/
theorem opcodeFieldsDescribeTheMap : Obligations.OpcodeFieldsDescribeTheMap := by
  intro b m h
  obtain rfl := byteOf_of_lookup h
  cases m <;> decide

end Sys2Proof.Proofs

namespace Sys2Proof.Machine

/-! The rules of 40_execution_loop.md: what a step is, by the level of `reset`, the run state and what the fetch
finds. -/

/-! No step. -/

theorem step_heldInReset {s : State} (h : s.resetHigh = true) : step s = .fault .heldInReset := by
  rw [step, if_pos h]

theorem step_halted {s : State} (hr : s.resetHigh = false) (h : s.run = .halted) : step s = .fault .noStepHalted := by
  simp [step, hr, h]

theorem step_faulted {s : State} (hr : s.resetHigh = false) (h : s.run = .faulted) :
    step s = .fault .noStepFaulted := by
  simp [step, hr, h]

/-! A step of a ready core. -/

/-- Above address 255 there is no opcode byte to fetch (R64). -/
theorem fetch_noOpcode {s : State} (h : 255 < s.pc) : s.fetch = .noOpcode := by
  rw [State.fetch, window_none h, decode]

/-- A fetch without an opcode byte faults with the pc (R64, R109). -/
theorem step_of_fetch_noOpcode {s : State} (h : s.Ready) (hf : s.fetch = .noOpcode) :
    step s = .next (s.enterFault .memoryAddressOutOfRange s.pc) := by
  rw [step_ready h, hf]
  rfl

/-- The missing operand byte a fault names is always the one at address 256 (R66, R109). -/
theorem step_of_fetch_missingOperand {s : State} {n : Nat} (h : s.Ready) (hf : s.fetch = .missingOperand n) :
    step s = .next (s.enterFault .memoryAddressOutOfRange 256) := by
  have hn : s.pc + n = 256 := pc_of_fetch_missingOperand hf
  rw [step_ready h, hf, dispatchFetched, hn]
  rfl

/-- At an opcode byte no mnemonic has, a ready core under the policy `hang` stays as it is (R73). -/
theorem step_unrecognized_hang {s : State} (h : s.Ready) (hu : s.cfg.unknownOpcode = .hang) (hp : s.pc ≤ 255)
    (hm : ∀ m, s.cfg.opcodeMap.byteOf m ≠ memGet s.mem s.pc) : step s = .next s := by
  rw [step_ready h, fetch_unrecognized hp hm, dispatchFetched, unknownOpcode, hu]

/-- A state that steps to itself is where every number of steps ends. -/
theorem run_of_step_eq_self {M : Host.Core} {s : M.State} (h : M.step s = .next s) (n : Nat) : M.run n s = .next s := by
  induction n with
  | zero => rfl
  | succ n ih =>
    rw [Host.Core.run, h]
    exact ih

/-- With its opcode byte at the pc every mnemonic comes to run as R66 says: its operand bytes are all in memory, or the
one at address 256 is missing. -/
theorem fetchesAs (m : Mnemonic) : FetchesAs m := by
  intro s h
  obtain ⟨hr, hd, hp, ho⟩ := h
  have hm : s.cfg.opcodeMap.lookup (memGet s.mem s.pc) = some m := ho ▸ lookup_byteOf hd m
  constructor
  · intro hmissing
    exact step_of_fetch_missingOperand hr (fetch_missing hp hm hmissing)
  · intro hfits
    obtain ⟨rest, hops⟩ := decodeOperands_fits s m hfits
    exact step_of_fetch hr ((fetch_recognized hp hm).trans hops)

/-! The invariant, kept by the moves of the host between steps (R62, R126 to R131). -/

/-- The core held in reset, nothing loaded yet, meets the invariant when its opcode map is legal. -/
theorem resetState_inv {s : State} (h : s.cfg.opcodeMap.Distinct) : (resetState s).Inv :=
  ⟨memWf_nil, Nat.zero_le _, .inl rfl, rfl, h, fun _ => rfl⟩

/-- Lowering `reset` keeps the invariant: it asks nothing more of a core whose `reset` is low. -/
theorem State.Inv.lowerReset {s : State} (h : s.Inv) : State.Inv { s with resetHigh := false } := by
  obtain ⟨hmem, hpc, hfl, hagree, hmap, -⟩ := h
  exact ⟨hmem, hpc, hfl, hagree, hmap, nofun⟩

theorem State.Inv.setReset {s : State} (h : s.Inv) (level : Bool) : (setReset level s).Inv := by
  cases level with
  | false => exact h.lowerReset
  | true =>
    cases hr : s.resetHigh with
    | false =>
      obtain ⟨-, -, -, -, hmap, -⟩ := h
      simpa only [Machine.setReset, hr] using resetState_inv hmap
    | true => simpa only [Machine.setReset, hr] using h

/-- A store at a byte's address keeps the invariant; a core held in reset is still the reset state but for memory. -/
theorem State.Inv.storeByte {s : State} (h : s.Inv) (addr data : Byte) : (s.storeByte addr.toNat data).Inv := by
  obtain ⟨hmem, hpc, hfl, hagree, hmap, hheld⟩ := h
  exact ⟨memSet_wf data hmem (byte_inRange addr), hpc, hfl, hagree, hmap,
    fun hr => congrArg (·.storeByte addr.toNat data) (hheld hr)⟩

theorem State.Inv.hostLoad {s : State} (h : s.Inv) (addr data : Byte) : (hostLoad addr data s).Inv := by
  unfold Machine.hostLoad
  split
  · exact h.storeByte addr data
  · exact h

theorem State.Inv.loadFrom {s : State} (h : s.Inv) (a : Nat) (image : List Byte) : (loadFrom a image s).Inv := by
  induction image generalizing s a with
  | nil => exact h
  | cons b bs ih => exact ih (h.hostLoad _ b) (a + 1)

theorem State.Inv.boot {s t : State} {image : List Byte} (h : s.Inv) (e : boot image s = some t) : t.Inv := by
  obtain ⟨-, e⟩ := Option.ite_none_right_eq_some.1 e
  obtain rfl := Option.some.inj e
  exact (((h.setReset false).setReset true).loadFrom 0 image).setReset false

/-! The output signals after a fault entry: the widths of R62 lose nothing of the record. -/

theorem faultPcPort_enterFault {s : State} (h : s.pc ≤ 256) (k : FaultKind) (d : Int) :
    (faultPcPort (s.enterFault k d)).map BitVec.toNat = some s.pc := by
  have hfits : s.pc < 2 ^ 9 := by omega
  exact congrArg some (Nat.mod_eq_of_lt hfits)

theorem faultDetailPort_enterFault (s : State) (k : FaultKind) {d : Int} (hlo : -1 ≤ d) (hhi : d ≤ 256) :
    (faultDetailPort (s.enterFault k d)).map BitVec.toInt = some d := by
  have hfits : (BitVec.ofInt 10 d).toInt = d := BitVec.toInt_ofInt_eq_self (by decide) (by omega) (by omega)
  exact congrArg some hfits

end Sys2Proof.Machine

namespace Sys2Proof.Proofs

open Sys2Proof.Machine

/-! The statements of 40_execution_loop.md settled. -/

/-- Settles O11: an unrecognized opcode under `hang` is a step from the state to itself. -/
theorem unrecognizedOpcodeHangs : Obligations.UnrecognizedOpcodeHangs :=
  fun _ n hr hu hp hm => run_of_step_eq_self (step_unrecognized_hang hr hu hp hm) n

/-- Settles O12, for every mnemonic by whether its operands fit below address 256. -/
theorem operandFetchFollowsArity : Obligations.OperandFetchFollowsArity := fetchesAs

/-- Settles O16: HLT has no operand byte, so its fetch fits wherever its opcode byte stands. -/
theorem hltHaltsInPlace : Obligations.HltHaltsInPlace := by
  refine ⟨fun s => rfl, fetchesAs .hlt, fun s h => ?_, rfl, rfl⟩
  have hfits : s.pc + Mnemonic.hlt.arity ≤ 255 := by
    obtain ⟨-, -, hp, -⟩ := h
    exact hp
  exact (fetchesAs .hlt s h).2 hfits

/-- Settles O44, move by move. -/
theorem hostMovesKeepTheInvariant : Obligations.HostMovesKeepTheInvariant :=
  fun _ h => ⟨h.setReset, h.hostLoad, fun _ _ e => h.boot e⟩

/-- Settles O7: a ready core runs what it fetched. -/
theorem stepRunsDecodedInstruction : Obligations.StepRunsDecodedInstruction :=
  fun _ _ _ h hf => step_of_fetch h hf

/-- Settles O9: above address 255 the fetch finds no opcode byte. -/
theorem fetchAboveMemoryFaults : Obligations.FetchAboveMemoryFaults :=
  fun _ h hp => step_of_fetch_noOpcode h (fetch_noOpcode hp)

/-- Settles O13, by the level of `reset` and then the run state. -/
theorem noStepUnlessReady : Obligations.NoStepUnlessReady :=
  fun _ => ⟨step_heldInReset, step_halted, step_faulted⟩

/-- Settles O58: the codes are the model's table, and the recorded pc and detail fit their ports. -/
theorem outputSignals : Obligations.OutputSignals := by
  refine ⟨fun s => ?_, fun s h => ?_, rfl, rfl, rfl, rfl, fun s k d hp hlo hhi => ?_⟩
  · refine ⟨fun h => ?_, fun h => ?_, fun h => ?_⟩ <;> rw [runStatePort, h]
  · rw [faultKindPort, h]
  · exact ⟨rfl, faultPcPort_enterFault hp k d, faultDetailPort_enterFault s k hlo hhi⟩

end Sys2Proof.Proofs

namespace Sys2Proof.Machine

/-! The rules of 41_alu.md: the ALU's results as bit-vector arithmetic, what MUL and CMP do by their two register
operands, and the faults a step can take. -/

/-! The ALU. -/

/-- The sum modulo 256 is the sum of bytes (R77, R81). -/
theorem aluAdd_eq_add (a b : Byte) : aluAdd a b = a + b :=
  BitVec.eq_of_toNat_eq (by simp [aluAdd])

/-- The product modulo 256 is the product of bytes (R78, R81). -/
theorem aluMul_eq_mul (a b : Byte) : aluMul a b = a * b :=
  BitVec.eq_of_toNat_eq (by simp [aluMul])

/-- The low 8 bits of the 16-bit product of two bytes are their product modulo 256 (R78). -/
theorem aluMul_eq_low_bits (a b : Byte) : aluMul a b = (a.setWidth 16 * b.setWidth 16).setWidth 8 := by
  rw [aluMul_eq_mul, BitVec.setWidth_mul _ _ (by decide)]
  simp

/-! Two register operands, checked in order (R112). -/

/-- With both operands legal, the instruction runs on with the registers they name. -/
theorem checkReg_checkReg_reg {a b : Byte} {r q : Fin 8} (hr : r.val = a.toNat) (hq : q.val = b.toNat) (s : State)
    (k : Fin 8 → Fin 8 → Result) : checkReg a s (fun r => checkReg b s (k r)) = k r q := by
  rw [checkReg_reg hr, checkReg_reg hq]

/-- The second operand's fault is taken only when the first operand is legal. -/
theorem checkReg_checkReg_bad {a b : Byte} (ha : a.toNat ≤ 7) (hb : 7 < b.toNat) (s : State)
    (k : Fin 8 → Fin 8 → Result) :
    checkReg a s (fun r => checkReg b s (k r)) = .next (s.enterFault .registerIndexOutOfRange b.toNat) := by
  rw [checkReg_ok ha, checkReg_bad hb]

/-- MUL is the ALU's product behind its two checks (R82). -/
theorem exec_mul (a b : Byte) (s : State) :
    exec (.mul a b) s = checkReg a s fun r => checkReg b s fun q => runAlu .mul r q s := rfl

/-- CMP is the ALU's comparison behind the same two checks (R83). -/
theorem exec_cmp (a b : Byte) (s : State) :
    exec (.cmp a b) s = checkReg a s fun r => checkReg b s fun q => runAlu .cmp r q s := rfl

theorem exec_mul_reg {a b : Byte} {r q : Fin 8} (hr : r.val = a.toNat) (hq : q.val = b.toNat) (s : State) :
    exec (.mul a b) s = .next ((s.writeReg r (aluMul (s.readReg r) (s.readReg q))).advance 3) :=
  (exec_mul a b s).trans (checkReg_checkReg_reg hr hq s _)

theorem exec_cmp_reg {a b : Byte} {r q : Fin 8} (hr : r.val = a.toNat) (hq : q.val = b.toNat) (s : State) :
    exec (.cmp a b) s = .next ((s.setFl (aluCmp (s.readReg r) (s.readReg q))).advance 3) :=
  (exec_cmp a b s).trans (checkReg_checkReg_reg hr hq s _)

/-! The faults of a step. -/

/-- No instruction selects an ALU operation the ALU does not have (R80). -/
theorem FaultOf.ne_unsupportedAlu {s : State} {i : Instr} {k : FaultKind} {d : Int} (h : FaultOf s i k d) :
    k ≠ .unsupportedAluOperation := by
  cases h <;> decide

/-- A step leaves the fault record as it was or takes a fault, which is never the ALU's (R80, R111). -/
theorem step_fault_cases {s t : State} (h : step s = .next t) :
    t.fault = s.fault ∨ ∃ k d, k ≠ .unsupportedAluOperation ∧ t = s.enterFault k d := by
  obtain ⟨-, ⟨i, -, -, h⟩ | ⟨-, rfl⟩ | ⟨_, -, -, rfl⟩ | ⟨-, -, -, rfl⟩ | ⟨_, -, rfl⟩⟩ := step_next h
  · obtain hc | ⟨k, d, hf, rfl⟩ := exec_next h
    · exact .inl hc.fault
    · exact .inr ⟨k, d, hf.ne_unsupportedAlu, rfl⟩
  · exact .inr ⟨_, _, by decide, rfl⟩
  · exact .inr ⟨_, _, by decide, rfl⟩
  · exact .inl rfl
  · exact .inr ⟨_, _, by decide, rfl⟩

end Sys2Proof.Machine

namespace Sys2Proof.Proofs

open Sys2Proof.Machine

/-! The statements of 41_alu.md settled. -/

/-- Settles O19, by whether each operand names a register. -/
theorem mulStoresProduct : Obligations.MulStoresProduct := by
  refine ⟨fun a b s ha hb => ?_, fun a b s ha => (exec_mul a b s).trans (checkReg_bad ha),
    fun a b s ha hb => (exec_mul a b s).trans (checkReg_checkReg_bad ha hb s _), fetchesAs .mul, rfl, rfl⟩
  obtain ⟨r, hr⟩ := exists_reg ha
  obtain ⟨q, hq⟩ := exists_reg hb
  rw [exec_mul_reg hr hq, State.regAt_reg hr, State.regAt_reg hq, ← hr, State.withReg_reg]
  rfl

/-- Settles O20, by whether each operand names a register; a comparison sets exactly one flag. -/
theorem cmpSetsFlags : Obligations.CmpSetsFlags := by
  refine ⟨fun a b s ha hb => ?_, fun a b s t ha hb h => ?_, fun a b s ha => (exec_cmp a b s).trans (checkReg_bad ha),
    fun a b s ha hb => (exec_cmp a b s).trans (checkReg_checkReg_bad ha hb s _), fetchesAs .cmp, rfl, rfl⟩
  all_goals
    obtain ⟨r, hr⟩ := exists_reg ha
    obtain ⟨q, hq⟩ := exists_reg hb
  · rw [exec_cmp_reg hr hq, State.regAt_reg hr, State.regAt_reg hq]
    rfl
  · rw [exec_cmp_reg hr hq] at h
    cases h
    exact aluCmp_cases _ _

/-- Settles O51: a step either keeps the fault record or replaces it by one of another kind. -/
theorem unsupportedAluSelectFaults : Obligations.UnsupportedAluSelectFaults := by
  refine ⟨fun _ _ _ => rfl, fun _ _ _ _ => rfl, fun s t r h hr hk => ?_⟩
  obtain hsame | ⟨k, d, hne, rfl⟩ := step_fault_cases h
  · rw [← hsame, hr]
  · cases hr
    exact absurd hk hne

/-- Settles O48: the product modulo 256 is the low byte of the 16-bit product. -/
theorem aluMulIsModulo256 : Obligations.AluMulIsModulo256 :=
  fun a b => ⟨rfl, congrArg _ (aluMul_eq_low_bits a b), rfl⟩

/-- Settles O49: the sum modulo 256 is the sum of bytes. -/
theorem aluAddIsModulo256 : Obligations.AluAddIsModulo256 :=
  fun a b => ⟨aluAdd a b, rfl, by rw [aluAdd_eq_add, BitVec.toNat_add], aluAdd_eq_add a b⟩

/-- Settles O50: each flag is its own comparison, and trichotomy leaves exactly one set. -/
theorem aluCmpSetsExactlyOne : Obligations.AluCmpSetsExactlyOne :=
  fun a b => ⟨aluCmp a b, rfl, decide_eq_true_iff, decide_eq_true_iff, decide_eq_true_iff, aluCmp_cases a b, rfl⟩

end Sys2Proof.Proofs

namespace Sys2Proof.Machine

/-! The rules of 42_register_io.md: LDI and PRN behind their one check, and the output port. -/

/-- LDI writes its immediate behind the check of its register operand (R86). -/
theorem exec_ldi (a imm : Byte) (s : State) :
    exec (.ldi a imm) s = checkReg a s fun r => .next ((s.writeReg r imm).advance 3) := rfl

/-- PRN emits a register behind the check of its operand (R87). -/
theorem exec_prn (a : Byte) (s : State) :
    exec (.prn a) s = checkReg a s fun r => .next ((s.emit (s.readReg r)).advance 2) := rfl

theorem exec_ldi_reg {a : Byte} {r : Fin 8} (hr : r.val = a.toNat) (imm : Byte) (s : State) :
    exec (.ldi a imm) s = .next ((s.writeReg r imm).advance 3) :=
  (exec_ldi a imm s).trans (checkReg_reg hr s _)

theorem exec_prn_reg {a : Byte} {r : Fin 8} (hr : r.val = a.toNat) (s : State) :
    exec (.prn a) s = .next ((s.emit (s.readReg r)).advance 2) :=
  (exec_prn a s).trans (checkReg_reg hr s _)

/-- The output port shows the byte a step appends to the output stream (R62, R90). -/
theorem outPort_of_out_append {s t : State} {v : Byte} (h : t.out = s.out ++ [v]) : outPort s t = some v := by
  rw [outPort, h, List.drop_left, List.head?_cons]

end Sys2Proof.Machine

namespace Sys2Proof.Proofs

open Sys2Proof.Machine

/-! The statements of 42_register_io.md settled. -/

/-- Settles O17, by whether the operand names a register. -/
theorem ldiLoadsImmediate : Obligations.LdiLoadsImmediate := by
  refine ⟨fun a imm s ha => ?_, fun a imm s ha => (exec_ldi a imm s).trans (checkReg_bad ha), fetchesAs .ldi, rfl, rfl⟩
  obtain ⟨r, hr⟩ := exists_reg ha
  rw [exec_ldi_reg hr, ← hr, State.withReg_reg]
  rfl

/-- Settles O18, by whether the operand names a register; the port shows the one byte appended. -/
theorem prnEmitsRegister : Obligations.PrnEmitsRegister := by
  refine ⟨fun a s ha => ⟨?_, outPort_of_out_append rfl⟩, fun a s ha => (exec_prn a s).trans (checkReg_bad ha),
    fetchesAs .prn, rfl, rfl⟩
  obtain ⟨r, hr⟩ := exists_reg ha
  rw [exec_prn_reg hr, State.regAt_reg hr]
  rfl

end Sys2Proof.Proofs

namespace Sys2Proof.Machine

/-! The rules of 43_stack.md: the stack pointer's arithmetic, and what PUSH, POP and CALL do behind their checks. -/

/-! Stack-pointer arithmetic (R92). -/

/-- The two ways a decrement answers: an ordinary one, and the wrap at 0. -/
theorem spDec_eq_ok {policy : SpRangePolicy} {sp sp' : Byte} :
    spDec policy sp = .ok sp' ↔ sp ≠ 0 ∧ sp' = sp - 1 ∨ sp = 0 ∧ policy = .wrap ∧ sp' = 255 := by
  by_cases h : sp = 0
  · cases policy <;> simp [spDec, h, @eq_comm _ sp']
  · rw [spDec_ok policy h, Except.ok.injEq]
    tauto

/-- The two ways an increment answers: an ordinary one, and the wrap at 255. -/
theorem spInc_eq_ok {policy : SpRangePolicy} {sp sp' : Byte} :
    spInc policy sp = .ok sp' ↔ sp ≠ 255 ∧ sp' = sp + 1 ∨ sp = 255 ∧ policy = .wrap ∧ sp' = 0 := by
  by_cases h : sp = 255
  · cases policy <;> simp [spInc, h, @eq_comm _ sp']
  · rw [spInc_ok policy h, Except.ok.injEq]
    tauto

/-- A decrement that does not fault subtracts 1 modulo 256: the wrap at 0 does so too. -/
theorem spDec_eq_sub_one {policy : SpRangePolicy} {sp : Byte} (h : sp ≠ 0 ∨ policy = .wrap) :
    spDec policy sp = .ok (sp - 1) := by
  by_cases h0 : sp = 0
  · exact spDec_eq_ok.2 (.inr ⟨h0, h.resolve_left (not_not_intro h0), by subst h0; rfl⟩)
  · exact spDec_ok policy h0

/-- Decrementing undoes an increment that did not fault, under either policy. -/
theorem spDec_of_spInc {policy : SpRangePolicy} {sp sp' : Byte} (h : spInc policy sp = .ok sp') :
    spDec policy sp' = .ok sp := by
  obtain ⟨hne, rfl⟩ | ⟨rfl, hp, rfl⟩ := spInc_eq_ok.1 h
  · exact spDec_eq_ok.2 (.inl ⟨by bv_omega, by simp⟩)
  · exact spDec_eq_ok.2 (.inr ⟨rfl, hp, rfl⟩)

/-! Two writes of SP, and R7 as an operand. -/

theorem reg_ne_sp {op : Byte} {r : Fin 8} (h : r.val = op.toNat) (hlt : op.toNat < 7) : r ≠ spIndex := by
  rintro rfl
  exact hlt.ne h.symm

theorem State.writeSp_writeSp (s : State) (v w : Byte) : (s.writeSp v).writeSp w = s.writeSp w := by
  simp [State.writeSp, State.writeReg]

/-- Reading an operand where R7 means the new SP (D25), by operand byte and by register. -/
theorem State.regAt_or_sp {a : Byte} {r : Fin 8} (hr : r.val = a.toNat) (s : State) (sp' : Byte) :
    (if a = 7 then sp' else s.regAt a) = if r = spIndex then sp' else s.readReg r := by
  simp only [reg_eq_sp_iff hr, State.regAt_reg hr]

/-! PUSH (R93). -/

/-- PUSH stores and decrements behind the checks of its operand and of SP; the store itself cannot fault. -/
theorem exec_push (a : Byte) (s : State) :
    exec (.push a) s = checkReg a s fun r => checkSp (spDec s.cfg.spRange s.sp) s fun sp' =>
      .next (((s.storeByte sp'.toNat (if r = spIndex then sp' else s.readReg r)).writeSp sp').advance 2) := by
  simp only [exec, execPush, memWrite_byte]

theorem exec_push_reg {a sp' : Byte} {r : Fin 8} {s : State} (hr : r.val = a.toNat)
    (hs : spDec s.cfg.spRange s.sp = .ok sp') :
    exec (.push a) s =
      .next (((s.storeByte sp'.toNat (if r = spIndex then sp' else s.readReg r)).writeSp sp').advance 2) := by
  rw [exec_push, checkReg_reg hr, hs, checkSp_ok]

theorem exec_push_spFault {a : Byte} {s : State} {addr : Int} (ha : a.toNat ≤ 7)
    (hs : spDec s.cfg.spRange s.sp = .error addr) :
    exec (.push a) s = .next (s.enterFault .memoryAddressOutOfRange addr) := by
  rw [exec_push, checkReg_ok ha, hs, checkSp_error]

/-! POP (R94). -/

/-- POP loads and increments behind the checks of its operand and of SP; the load itself cannot fault. POP R7
increments the byte it has loaded. -/
theorem exec_pop (a : Byte) (s : State) :
    exec (.pop a) s = checkReg a s fun r =>
      checkSp (spInc s.cfg.spRange (if r = spIndex then memGet s.mem s.sp.toNat else s.sp)) s fun sp' =>
        .next (((s.writeReg r (memGet s.mem s.sp.toNat)).writeSp sp').advance 2) := by
  simp only [exec, execPop, memRead_byte]

theorem exec_pop_reg {a sp' : Byte} {r : Fin 8} {s : State} (hr : r.val = a.toNat)
    (hs : spInc s.cfg.spRange (if r = spIndex then memGet s.mem s.sp.toNat else s.sp) = .ok sp') :
    exec (.pop a) s = .next (((s.writeReg r (memGet s.mem s.sp.toNat)).writeSp sp').advance 2) := by
  rw [exec_pop, checkReg_reg hr, hs, checkSp_ok]

theorem exec_pop_spFault {a : Byte} {r : Fin 8} {s : State} {addr : Int} (hr : r.val = a.toNat)
    (hs : spInc s.cfg.spRange (if r = spIndex then memGet s.mem s.sp.toNat else s.sp) = .error addr) :
    exec (.pop a) s = .next (s.enterFault .memoryAddressOutOfRange addr) := by
  rw [exec_pop, checkReg_reg hr, hs, checkSp_error]

/-! CALL (R98). -/

/-- CALL stores its return address and jumps behind three checks, in the order of R112. -/
theorem exec_call (a : Byte) (s : State) :
    exec (.call a) s = checkReg a s fun r => checkSp (spDec s.cfg.spRange s.sp) s fun sp' =>
      checkAddress (s.pc + 2) s fun ret =>
        .next (((s.storeByte sp'.toNat (BitVec.ofNat 8 ret)).writeSp sp').jump
          (if r = spIndex then sp' else s.readReg r)) := by
  simp only [exec, execCall, memWrite_byte]

theorem exec_call_reg {a sp' : Byte} {r : Fin 8} {s : State} (hr : r.val = a.toNat)
    (hs : spDec s.cfg.spRange s.sp = .ok sp') (hp : s.pc + 2 ≤ 255) :
    exec (.call a) s =
      .next (((s.storeByte sp'.toNat (BitVec.ofNat 8 (s.pc + 2))).writeSp sp').jump
        (if r = spIndex then sp' else s.readReg r)) := by
  rw [exec_call, checkReg_reg hr, hs, checkSp_ok, checkAddress_ok hp]

theorem exec_call_spFault {a : Byte} {s : State} {addr : Int} (ha : a.toNat ≤ 7)
    (hs : spDec s.cfg.spRange s.sp = .error addr) :
    exec (.call a) s = .next (s.enterFault .memoryAddressOutOfRange addr) := by
  rw [exec_call, checkReg_ok ha, hs, checkSp_error]

theorem exec_call_returnFault {a sp' : Byte} {s : State} (ha : a.toNat ≤ 7)
    (hs : spDec s.cfg.spRange s.sp = .ok sp') (hp : 255 < s.pc + 2) :
    exec (.call a) s = .next (s.enterFault .memoryAddressOutOfRange (s.pc + 2 : Nat)) := by
  rw [exec_call, checkReg_ok ha, hs, checkSp_ok, checkAddress_bad hp]

end Sys2Proof.Machine

namespace Sys2Proof.Proofs

open Sys2Proof.Machine

/-! The statements of 43_stack.md settled. -/

/-- Settles O21, by whether the operand names a register and whether the decrement faults. -/
theorem pushStoresBelowStack : Obligations.PushStoresBelowStack := by
  refine ⟨fun a sp' s ha hs => ?_, fun a sp' s t ha hs h => ?_, fun a s ha h0 hp => ?_,
    fun a s ha => (exec_push a s).trans (checkReg_bad ha), fetchesAs .push, rfl, rfl⟩
  · obtain ⟨r, hr⟩ := exists_reg ha
    rw [exec_push_reg hr (spDec_eq_ok.2 hs), State.regAt_or_sp hr, State.withReg_sp]
    rfl
  · obtain ⟨r, hr⟩ := exists_reg ha
    rw [exec_push_reg hr (spDec_eq_ok.2 hs)] at h
    cases h
    rw [State.regAt_or_sp hr]
    exact (memGet_memSet _ _ · _)
  · exact exec_push_spFault ha (by rw [h0, hp]; rfl)

/-- Settles O22: for an operand other than R7 it is the old SP that is incremented. -/
theorem popLoadsFromStack : Obligations.PopLoadsFromStack := by
  refine ⟨fun a sp' s ha hs => ?_, fun a s ha h255 hp => ?_, fun a s ha => (exec_pop a s).trans (checkReg_bad ha),
    fetchesAs .pop, rfl, rfl⟩
  all_goals obtain ⟨r, hr⟩ := exists_reg ha.le
  · rw [exec_pop_reg hr (by rw [if_neg (reg_ne_sp hr ha)]; exact spInc_eq_ok.2 hs), ← hr, State.withReg_reg,
      State.withReg_sp]
    rfl
  · exact exec_pop_spFault hr (by rw [if_neg (reg_ne_sp hr ha), h255, hp]; rfl)

/-- Settles O23: for R7 it is the popped byte that is incremented, and the second write of R7 is the one that stays. -/
theorem popIntoStackPointer : Obligations.PopIntoStackPointer := by
  refine ⟨fun v sp' s hv hs => ?_, fun s h255 hp => ?_⟩
  · subst hv
    rw [exec_pop_reg (a := 7) (r := spIndex) rfl (by rw [if_pos rfl]; exact spInc_eq_ok.2 hs),
      ← State.writeSp_eq_writeReg, State.writeSp_writeSp, State.withReg_sp]
    rfl
  · exact exec_pop_spFault (r := spIndex) rfl (by rw [if_pos rfl, h255, hp]; rfl)

/-- Settles O24, by the three checks in their order: the operand, the decrement, the return address. -/
theorem callPushesReturnAddress : Obligations.CallPushesReturnAddress := by
  refine ⟨fun a sp' s ha hpc hs => ?_, fun a sp' s t ha hpc hs h => ?_, fun a s ha h0 hp => ?_,
    fun a s ha hs hpc => exec_call_returnFault ha (spDec_eq_sub_one hs) hpc,
    fun a s ha => (exec_call a s).trans (checkReg_bad ha), fetchesAs .call, rfl, rfl⟩
  · obtain ⟨r, hr⟩ := exists_reg ha
    rw [exec_call_reg hr (spDec_eq_ok.2 hs) hpc, State.regAt_or_sp hr, State.withReg_sp]
    rfl
  · obtain ⟨r, hr⟩ := exists_reg ha
    rw [exec_call_reg hr (spDec_eq_ok.2 hs) hpc] at h
    cases h
    refine ⟨?_, fun x hx => memGet_memSet_ne _ _ hx⟩
    calc
      _ = (BitVec.ofNat 8 (s.pc + 2)).toNat := congrArg BitVec.toNat (memGet_memSet_self ..)
      _ = s.pc + 2 := Nat.mod_eq_of_lt (Nat.lt_succ_of_le hpc)
  · exact exec_call_spFault ha (by rw [h0, hp]; rfl)

/-- Settles O45: whether or not the register is R7, POP increments the SP that PUSH left, since PUSH R7 stored it. -/
theorem pushThenPopRoundTrips : Obligations.PushThenPopRoundTrips := by
  intro a s t ha hsp h
  obtain ⟨r, hr⟩ := exists_reg ha
  have hdec := spDec_eq_sub_one hsp
  rw [exec_push_reg hr hdec] at h
  cases h
  rw [State.regAt_or_sp hr]
  refine ⟨_, exec_pop_reg hr (sp' := s.sp) ?_, State.regs_ext fun q => ?_, rfl, rfl, rfl, memGet_memSet_self ..⟩
  · have hinc := (spInc_of_spDec hdec).1
    by_cases h7 : r = spIndex <;> simpa [h7] using hinc
  · by_cases hq : q = spIndex
    · simp [hq, State.sp]
    · by_cases hrq : r = q
      · subst hrq
        simp [hq, Ne.symm hq]
      · simp [Ne.symm hq, State.readReg_writeReg_ne _ _ hrq]

/-- Settles O47: each operation undoes the other, and at the ends of the range the policy decides. -/
theorem stackPointerArithmetic : Obligations.StackPointerArithmetic := by
  refine ⟨fun p sp h => ?_, fun p sp h => ?_, rfl, rfl, rfl, rfl⟩
  · have hdec := spDec_ok p h
    exact ⟨_, hdec, by bv_omega, (spInc_of_spDec hdec).1⟩
  · have hinc := spInc_ok p h
    exact ⟨_, hinc, by bv_omega, spDec_of_spInc hinc⟩

end Sys2Proof.Proofs

namespace Sys2Proof.Machine

/-! The rules of 44_control_transfer.md: what RET, JMP, JEQ and JNE do behind their one check. CALL's rule stands with
the stack's. -/

/-! RET (R99). -/

/-- RET jumps to the byte at SP and increments behind the check of SP; the load itself cannot fault. -/
theorem exec_ret (s : State) :
    exec .ret s = checkSp (spInc s.cfg.spRange s.sp) s fun sp' =>
      .next ((s.writeSp sp').jump (memGet s.mem s.sp.toNat)) := by
  simp only [exec, execRet, memRead_byte]

theorem exec_ret_sp {sp' : Byte} {s : State} (hs : spInc s.cfg.spRange s.sp = .ok sp') :
    exec .ret s = .next ((s.writeSp sp').jump (memGet s.mem s.sp.toNat)) := by
  rw [exec_ret, hs, checkSp_ok]

theorem exec_ret_spFault {s : State} {addr : Int} (hs : spInc s.cfg.spRange s.sp = .error addr) :
    exec .ret s = .next (s.enterFault .memoryAddressOutOfRange addr) := by
  rw [exec_ret, hs, checkSp_error]

/-! JMP, JEQ and JNE (R100 to R102). -/

/-- JMP jumps behind the check of its operand. -/
theorem exec_jmp (a : Byte) (s : State) : exec (.jmp a) s = checkReg a s fun r => .next (s.jump (s.readReg r)) := rfl

/-- JEQ looks at E only behind the check of its operand (D29). -/
theorem exec_jeq (a : Byte) (s : State) :
    exec (.jeq a) s = checkReg a s fun r => if s.fl.e then .next (s.jump (s.readReg r)) else .next (s.advance 2) := rfl

/-- JNE looks at E only behind the check of its operand (D29), and branches the other way. -/
theorem exec_jne (a : Byte) (s : State) :
    exec (.jne a) s = checkReg a s fun r => if s.fl.e then .next (s.advance 2) else .next (s.jump (s.readReg r)) := rfl

section LegalOperand
variable {a : Byte} {s : State}

theorem exec_jmp_legal (ha : a.toNat ≤ 7) : exec (.jmp a) s = .next (s.jump (s.regAt a)) := by
  obtain ⟨r, hr⟩ := exists_reg ha
  rw [exec_jmp, checkReg_reg hr, State.regAt_reg hr]

theorem exec_jeq_taken (ha : a.toNat ≤ 7) (he : s.fl.e = true) : exec (.jeq a) s = .next (s.jump (s.regAt a)) := by
  obtain ⟨r, hr⟩ := exists_reg ha
  rw [exec_jeq, checkReg_reg hr, if_pos he, State.regAt_reg hr]

theorem exec_jeq_notTaken (ha : a.toNat ≤ 7) (he : s.fl.e = false) : exec (.jeq a) s = .next (s.advance 2) := by
  rw [exec_jeq, checkReg_ok ha, if_neg (ne_true_of_eq_false he)]

theorem exec_jne_taken (ha : a.toNat ≤ 7) (he : s.fl.e = false) : exec (.jne a) s = .next (s.jump (s.regAt a)) := by
  obtain ⟨r, hr⟩ := exists_reg ha
  rw [exec_jne, checkReg_reg hr, if_neg (ne_true_of_eq_false he), State.regAt_reg hr]

theorem exec_jne_notTaken (ha : a.toNat ≤ 7) (he : s.fl.e = true) : exec (.jne a) s = .next (s.advance 2) := by
  rw [exec_jne, checkReg_ok ha, if_pos he]

end LegalOperand

end Sys2Proof.Machine

namespace Sys2Proof.Proofs

open Sys2Proof.Machine

/-! The statements of 44_control_transfer.md settled. -/

/-- Settles O25, by whether the increment faults. -/
theorem retPopsThePc : Obligations.RetPopsThePc := by
  refine ⟨fun sp' s hs => ?_, fun s h255 hp => exec_ret_spFault (by rw [h255, hp]; rfl), fetchesAs .ret, rfl, rfl⟩
  rw [exec_ret_sp (spInc_eq_ok.2 hs), State.withReg_sp]
  rfl

/-- Settles O26, by whether the operand names a register. -/
theorem jmpSetsThePc : Obligations.JmpSetsThePc :=
  ⟨fun _ _ ha => exec_jmp_legal ha, fun a s ha => (exec_jmp a s).trans (checkReg_bad ha), fetchesAs .jmp, rfl, rfl⟩

/-- Settles O27, by whether the operand names a register and then by E. -/
theorem jeqJumpsWhenEqual : Obligations.JeqJumpsWhenEqual :=
  ⟨fun _ _ ha he => exec_jeq_taken ha he, fun _ _ ha he => exec_jeq_notTaken ha he,
    fun a s ha => (exec_jeq a s).trans (checkReg_bad ha), fetchesAs .jeq, rfl, rfl⟩

/-- Settles O28, by whether the operand names a register and then by E. -/
theorem jneJumpsWhenNotEqual : Obligations.JneJumpsWhenNotEqual :=
  ⟨fun _ _ ha he => exec_jne_taken ha he, fun _ _ ha he => exec_jne_notTaken ha he,
    fun a s ha => (exec_jne a s).trans (checkReg_bad ha), fetchesAs .jne, rfl, rfl⟩

/-- Settles O46: RET increments the SP that CALL left, which undoes the decrement, and the byte there is the return
address CALL stored (O24). -/
theorem callThenRetReturns : Obligations.CallThenRetReturns := by
  intro a s t u ha hsp hpc h hcfg husp hcell
  have hdec := spDec_eq_sub_one hsp
  have htsp : t.sp = s.sp - 1 := by
    obtain ⟨r, hr⟩ := exists_reg ha
    rw [exec_call_reg hr hdec hpc] at h
    cases h
    simp
  obtain ⟨-, hcall, -⟩ := callPushesReturnAddress
  obtain ⟨hret, -⟩ := hcall a _ s t ha hpc (spDec_eq_ok.1 hdec) h
  have hinc : spInc u.cfg.spRange u.sp = .ok s.sp := by
    rw [hcfg, husp, htsp]
    exact (spInc_of_spDec hdec).1
  refine ⟨_, exec_ret_sp hinc, ?_, by simp⟩
  rw [State.jump_pc, hcell, htsp, hret]

end Sys2Proof.Proofs

namespace Sys2Proof.Machine

/-! The rules of 60_exceptions.md: the fault an instruction and a step take is the first failing check of R112's list,
and where no check fails the instruction completes. -/

/-! Register operands (R108, R112 item 4). -/

theorem instr_wf_iff {i : Instr} : i.wf = true ↔ ∀ op ∈ i.regOperands, op.toNat ≤ 7 := by
  simp only [Instr.wf, List.all_eq_true, isRegIndex_iff]

/-- Well formed means that no register operand is the first bad one (R13). -/
theorem firstBadReg_eq_none {i : Instr} : i.firstBadReg = none ↔ i.wf = true := by
  simp [Instr.firstBadReg, Instr.wf]

/-- A register check reports the first illegal operand, its own or one that the rest of the instruction reports. -/
theorem checkReg_firstBad {a op : Byte} {ops : List Byte} {s : State} {k : Fin 8 → Result}
    (h : (a :: ops).find? (fun op => !isRegIndex op) = some op)
    (hk : ops.find? (fun op => !isRegIndex op) = some op →
      ∀ r, k r = .next (s.enterFault .registerIndexOutOfRange op.toNat)) :
    checkReg a s k = .next (s.enterFault .registerIndexOutOfRange op.toNat) := by
  by_cases ha : a.toNat ≤ 7
  · rw [List.find?_cons_of_neg (by simp [isRegIndex, ha])] at h
    rw [checkReg_ok ha]
    exact hk h _
  · rw [List.find?_cons_of_pos (by simp [isRegIndex, ha])] at h
    cases h
    exact checkReg_bad (Nat.not_le.1 ha)

/-- The first illegal register operand is the fault, before any other check of the instruction. -/
theorem exec_firstBadReg {i : Instr} {op : Byte} (h : i.firstBadReg = some op) (s : State) :
    exec i s = .next (s.enterFault .registerIndexOutOfRange op.toNat) := by
  cases i with
  | hlt | ret => cases h
  | ldi a imm => exact (exec_ldi a imm s).trans (checkReg_firstBad h nofun)
  | prn a => exact (exec_prn a s).trans (checkReg_firstBad h nofun)
  | mul a b => exact (exec_mul a b s).trans (checkReg_firstBad h fun h _ => checkReg_firstBad h nofun)
  | cmp a b => exact (exec_cmp a b s).trans (checkReg_firstBad h fun h _ => checkReg_firstBad h nofun)
  | push a => exact (exec_push a s).trans (checkReg_firstBad h nofun)
  | pop a => exact (exec_pop a s).trans (checkReg_firstBad h nofun)
  | call a => exact (exec_call a s).trans (checkReg_firstBad h nofun)
  | jmp a => exact (exec_jmp a s).trans (checkReg_firstBad h nofun)
  | jeq a => exact (exec_jeq a s).trans (checkReg_firstBad h nofun)
  | jne a => exact (exec_jne a s).trans (checkReg_firstBad h nofun)

/-! The handlers' own checks (R92, R112 item 5). -/

/-- A decrement faults at 0 under the policy `fault` and subtracts 1 everywhere else. -/
theorem spDec_eq_ite (policy : SpRangePolicy) (sp : Byte) :
    spDec policy sp = if policy = .fault ∧ sp = 0 then .error (-1) else .ok (sp - 1) := by
  split
  · next h =>
    obtain ⟨rfl, rfl⟩ := h
    rfl
  · next h =>
    refine spDec_eq_sub_one ?_
    cases policy with
    | fault => exact .inl fun h0 => h ⟨rfl, h0⟩
    | wrap => exact .inr rfl

/-- An increment faults at 255 under the policy `fault` and adds 1 everywhere else, the wrap to 0 included. -/
theorem spInc_eq_ite (policy : SpRangePolicy) (sp : Byte) :
    spInc policy sp = if policy = .fault ∧ sp = 255 then .error 256 else .ok (sp + 1) := by
  split
  · next h =>
    obtain ⟨rfl, rfl⟩ := h
    rfl
  · next h =>
    by_cases h255 : sp = 255
    · subst h255
      cases policy with
      | fault => exact absurd ⟨rfl, rfl⟩ h
      | wrap => rfl
    · exact spInc_ok policy h255

/-- What an instruction does under the faults `f` predicts for it: it takes the fault, or there is none and it
completes. -/
abbrev TakesOrCompletes (f : Option (FaultKind × Int)) (i : Instr) (s : State) : Prop :=
  (∃ k d, f = some (k, d) ∧ exec i s = .next (s.enterFault k d)) ∨
    (f = none ∧ ∃ t, Completes s i t ∧ exec i s = .next t)

/-- The one check of PUSH's handler is the decrement (R93). -/
theorem exec_push_cases {a : Byte} (ha : a.toNat ≤ 7) (s : State) :
    TakesOrCompletes (s.handlerFault (.push a)) (.push a) s := by
  obtain ⟨r, hr⟩ := exists_reg ha
  have hdec := spDec_eq_ite s.cfg.spRange s.sp
  by_cases h : s.cfg.spRange = .fault ∧ s.sp = 0
  · exact .inl ⟨_, _, if_pos h, exec_push_spFault ha (hdec.trans (if_pos h))⟩
  · replace hdec := hdec.trans (if_neg h)
    exact .inr ⟨if_neg h, _, .push hr hdec, exec_push_reg hr hdec⟩

/-- The one check of POP's handler is the increment, of the popped byte where the operand byte is 7 (R94). -/
theorem exec_pop_cases {a : Byte} (ha : a.toNat ≤ 7) (s : State) :
    TakesOrCompletes (s.handlerFault (.pop a)) (.pop a) s := by
  obtain ⟨r, hr⟩ := exists_reg ha
  simp only [TakesOrCompletes, State.handlerFault, ← reg_eq_sp_iff hr]
  have hinc := spInc_eq_ite s.cfg.spRange (if r = spIndex then memGet s.mem s.sp.toNat else s.sp)
  by_cases h : s.cfg.spRange = .fault ∧ (if r = spIndex then memGet s.mem s.sp.toNat else s.sp) = 255
  · exact .inl ⟨_, _, if_pos h, exec_pop_spFault hr (hinc.trans (if_pos h))⟩
  · replace hinc := hinc.trans (if_neg h)
    exact .inr ⟨if_neg h, _, .pop hr hinc, exec_pop_reg hr hinc⟩

/-- CALL's handler checks the decrement and then the return address (R98). -/
theorem exec_call_cases {a : Byte} (ha : a.toNat ≤ 7) (s : State) :
    TakesOrCompletes (s.handlerFault (.call a)) (.call a) s := by
  obtain ⟨r, hr⟩ := exists_reg ha
  have hdec := spDec_eq_ite s.cfg.spRange s.sp
  by_cases h : s.cfg.spRange = .fault ∧ s.sp = 0
  · exact .inl ⟨_, _, if_pos h, exec_call_spFault ha (hdec.trans (if_pos h))⟩
  · replace hdec := hdec.trans (if_neg h)
    by_cases hp : 255 < s.pc + 2
    · exact .inl ⟨_, _, (if_neg h).trans (if_pos hp), exec_call_returnFault ha hdec hp⟩
    · have hfits := Nat.not_lt.1 hp
      exact .inr ⟨(if_neg h).trans (if_neg hp), _, .call hr hdec hfits, exec_call_reg hr hdec hfits⟩

/-- RET's one check is the increment (R99). -/
theorem exec_ret_cases (s : State) : TakesOrCompletes (s.handlerFault .ret) .ret s := by
  have hinc := spInc_eq_ite s.cfg.spRange s.sp
  by_cases h : s.cfg.spRange = .fault ∧ s.sp = 255
  · exact .inl ⟨_, _, if_pos h, exec_ret_spFault (hinc.trans (if_pos h))⟩
  · replace hinc := hinc.trans (if_neg h)
    exact .inr ⟨if_neg h, _, .ret hinc, exec_ret_sp hinc⟩

/-- With legal register operands, an instruction takes the first fault of its handler's checks or completes. -/
theorem exec_wf_cases {i : Instr} (hwf : i.wf = true) (s : State) : TakesOrCompletes (s.handlerFault i) i s := by
  have legal := instr_wf_iff.1 hwf
  cases i with
  | hlt => exact .inr ⟨rfl, _, .hlt, rfl⟩
  | ldi a imm =>
    obtain ⟨r, hr⟩ := exists_reg (legal a (.head _))
    exact .inr ⟨rfl, _, .ldi hr, exec_ldi_reg hr imm s⟩
  | prn a =>
    obtain ⟨r, hr⟩ := exists_reg (legal a (.head _))
    exact .inr ⟨rfl, _, .prn hr, exec_prn_reg hr s⟩
  | mul a b =>
    obtain ⟨r, hr⟩ := exists_reg (legal a (.head _))
    obtain ⟨q, hq⟩ := exists_reg (legal b (.tail _ (.head _)))
    exact .inr ⟨rfl, _, .mul hr hq, exec_mul_reg hr hq s⟩
  | cmp a b =>
    obtain ⟨r, hr⟩ := exists_reg (legal a (.head _))
    obtain ⟨q, hq⟩ := exists_reg (legal b (.tail _ (.head _)))
    exact .inr ⟨rfl, _, .cmp hr hq, exec_cmp_reg hr hq s⟩
  | push a => exact exec_push_cases (legal a (.head _)) s
  | pop a => exact exec_pop_cases (legal a (.head _)) s
  | call a => exact exec_call_cases (legal a (.head _)) s
  | ret => exact exec_ret_cases s
  | jmp a =>
    have ha := legal a (.head _)
    obtain ⟨r, hr⟩ := exists_reg ha
    exact .inr ⟨rfl, _, .jmp hr, State.regAt_reg hr s ▸ exec_jmp_legal ha⟩
  | jeq a =>
    have ha := legal a (.head _)
    obtain ⟨r, hr⟩ := exists_reg ha
    cases he : s.fl.e with
    | true => exact .inr ⟨rfl, _, .jeqTaken hr he, State.regAt_reg hr s ▸ exec_jeq_taken ha he⟩
    | false => exact .inr ⟨rfl, _, .jeqNotTaken hr he, exec_jeq_notTaken ha he⟩
  | jne a =>
    have ha := legal a (.head _)
    obtain ⟨r, hr⟩ := exists_reg ha
    cases he : s.fl.e with
    | true => exact .inr ⟨rfl, _, .jneNotTaken hr he, exec_jne_notTaken ha he⟩
    | false => exact .inr ⟨rfl, _, .jneTaken hr he, State.regAt_reg hr s ▸ exec_jne_taken ha he⟩

/-- Once fetched, an instruction takes the first fault of R112's items 4 and 5 or completes. -/
theorem exec_cases (i : Instr) (s : State) : TakesOrCompletes (s.executeFault i) i s := by
  cases hb : i.firstBadReg with
  | some op => exact .inl ⟨_, _, by rw [State.executeFault, hb], exec_firstBadReg hb s⟩
  | none =>
    have he : s.executeFault i = s.handlerFault i := by rw [State.executeFault, hb]
    rw [he]
    exact exec_wf_cases (firstBadReg_eq_none.1 hb) s

/-- A completed instruction does not end FAULTED, unless it began so. -/
theorem Completes.run_ne_faulted {i : Instr} {s t : State} (h : Completes s i t) (hr : s.run ≠ .faulted) :
    t.run ≠ .faulted := by
  cases h with
  | hlt => simp
  | _ => exact hr

/-! The step (R112). -/

/-- A ready core takes the first fault of R112's list, or takes none and keeps its fault record. -/
theorem step_cases {s : State} (hr : s.Ready) :
    (∃ k d, s.firstFault = some (k, d) ∧ step s = .next (s.enterFault k d)) ∨
      (s.firstFault = none ∧ ∃ t, step s = .next t ∧ t.run ≠ .faulted ∧ t.fault = s.fault) := by
  have hrun : s.run ≠ .faulted := by simp [hr.2]
  by_cases hp : 255 < s.pc
  · exact .inl ⟨_, _, if_pos hp, step_of_fetch_noOpcode hr (fetch_noOpcode hp)⟩
  have hp' := Nat.not_lt.1 hp
  rw [State.firstFault, if_neg hp]
  cases e : s.cfg.opcodeMap.lookup (memGet s.mem s.pc) with
  | none =>
    have hm := lookup_eq_none.1 e
    cases hu : s.cfg.unknownOpcode with
    | fault => exact .inl ⟨_, _, rfl, step_unrecognized hr hu hp' hm⟩
    | hang => exact .inr ⟨rfl, s, step_unrecognized_hang hr hu hp' hm, hrun, rfl⟩
  | some m =>
    by_cases ha : 255 < s.pc + m.arity
    · exact .inl ⟨_, _, if_pos ha, step_of_fetch_missingOperand hr (fetch_missing hp' e ha)⟩
    · obtain ⟨rest, hops⟩ := decodeOperands_fits s m (Nat.not_lt.1 ha)
      rw [step_of_fetch hr ((fetch_recognized hp' e).trans hops)]
      simp only [if_neg ha]
      refine (exec_cases (s.instrAtPc m) s).imp_right ?_
      rintro ⟨hnone, t, hc, ht⟩
      exact ⟨hnone, t, ht, hc.run_ne_faulted hrun, hc.fault⟩

/-- A fetch that finds an unrecognized opcode found it at the pc (R107). -/
theorem fetch_eq_unrecognized {s : State} {opc : Byte} (h : s.fetch = .unrecognized opc) :
    s.pc ≤ 255 ∧ ∀ m, s.cfg.opcodeMap.byteOf m ≠ memGet s.mem s.pc := by
  have hp : s.pc ≤ 255 := by
    by_contra hp
    simp [fetch_noOpcode (Nat.not_le.1 hp)] at h
  refine ⟨hp, lookup_eq_none.1 ?_⟩
  cases e : s.cfg.opcodeMap.lookup (memGet s.mem s.pc) with
  | none => rfl
  | some m => exact absurd ((fetch_recognized hp e).symm.trans h) (decodeOperands_ne_unrecognized _ _ _)

/-- Only a fetch finds an opcode unrecognized (R107). -/
theorem FaultOf.ne_unrecognizedOpcode {s : State} {i : Instr} {k : FaultKind} {d : Int} (h : FaultOf s i k d) :
    k ≠ .unrecognizedOpcode := by
  cases h <;> decide

/-- A well-formed instruction has no illegal register operand to report (R108). -/
theorem FaultOf.ne_registerIndex {s : State} {i : Instr} {k : FaultKind} {d : Int} (h : FaultOf s i k d)
    (hwf : i.wf = true) : k ≠ .registerIndexOutOfRange := by
  cases h with
  | register hop hbad => exact absurd (instr_wf_iff.1 hwf _ hop) (Nat.not_le.2 hbad)
  | _ => decide

end Sys2Proof.Machine

namespace Sys2Proof.Proofs

open Sys2Proof.Machine

/-! The statements of 60_exceptions.md settled. -/

/-- Settles O39, check by check along R112's list. -/
theorem faultsFollowThePriorityList : Obligations.FaultsFollowThePriorityList := by
  intro s hr
  obtain ⟨k, d, hf, h⟩ | ⟨hf, h⟩ := step_cases hr <;> rw [hf] <;> exact h

/-- Settles O38: a step that does not fault does not end FAULTED. -/
theorem faultsArePrecise : Obligations.FaultsArePrecise := by
  intro s t h hrun
  obtain ⟨k, d, -, h'⟩ | ⟨-, t', h', hne, -⟩ := step_cases (ready_of_step h) <;> cases h.symm.trans h'
  · exact ⟨k, d, rfl⟩
  · exact absurd hrun hne

/-- Settles O10: of all a step can do, only the fault of an unrecognized byte at the pc is of this kind. -/
theorem unrecognizedOpcodeFaults : Obligations.UnrecognizedOpcodeFaults := by
  refine ⟨fun s hr hu hp hm => step_unrecognized hr hu hp hm, fun s t r h hr hnone hk => ?_⟩
  obtain ⟨-, ⟨i, -, -, h⟩ | ⟨-, rfl⟩ | ⟨opc, hfetch, hu, -⟩ | ⟨-, -, -, rfl⟩ | ⟨n, -, rfl⟩⟩ := step_next h
  · obtain hc | ⟨k, d, hf, rfl⟩ := exec_next h
    · simp [hc.fault, hnone] at hr
    · cases hr
      exact absurd hk hf.ne_unrecognizedOpcode
  · cases hr
    cases hk
  · obtain ⟨hp, hm⟩ := fetch_eq_unrecognized hfetch
    exact ⟨hp, hu, hm⟩
  · simp [hnone] at hr
  · cases hr
    cases hk

/-- Settles O40: the operands are checked before all else, and a well-formed instruction completes with the old record
or takes a fault of another kind. -/
theorem illegalRegisterOperandFaults : Obligations.IllegalRegisterOperandFaults := by
  refine ⟨fun i op s h => exec_firstBadReg h s, fun i => firstBadReg_eq_none, fun i s t r hwf h hr hk => ?_⟩
  obtain hc | ⟨k, d, hf, rfl⟩ := exec_next h
  · rw [← hc.fault, hr]
  · cases hr
    exact absurd hk (hf.ne_registerIndex hwf)

/-- Settles O41: a completed instruction does not end FAULTED, and its faults are those of `FaultOf`. -/
theorem faultTableOfTheInstructions : Obligations.FaultTableOfTheInstructions := by
  intro i s t k d hp hrun h ht
  obtain hc | ⟨k', d', hf, ht'⟩ := exec_next h
  · exact absurd (by rw [ht]; rfl) (hc.run_ne_faulted hrun)
  obtain ⟨rfl, rfl⟩ : k' = k ∧ d' = d := by simpa using congrArg State.fault (ht'.symm.trans ht)
  cases hf with
  | @register _ op hop hbad =>
    have hle := byte_inRange op
    refine .inl ⟨rfl, by omega, by omega, ?_, ?_⟩ <;> rintro rfl <;> cases hop
  | spBelow hi hpol => exact .inr (.inl ⟨rfl, hpol, rfl, hi⟩)
  | spAbove hi hpol => exact .inr (.inr (.inl ⟨rfl, hpol, rfl, hi⟩))
  | @returnAddress a hret =>
    rw [arity_mnemonic, Instr.operands, List.length_singleton] at hp
    have hpc : s.pc = 254 := by omega
    exact .inr (.inr (.inr ⟨rfl, hpc, by rw [hpc]; rfl, a, rfl⟩))

/-- Settles O59: each trace value is the field or the cell it names, and 255 is the top address. -/
theorem traceShowsTheState : Obligations.TraceShowsTheState :=
  fun _ => ⟨rfl, rfl, rfl, rfl, rfl⟩

end Sys2Proof.Proofs

namespace Sys2Proof.Machine

/-! The rules of 70_reset_and_hazards.md: raising and releasing `reset`, and a load while it is low. -/

theorem setReset_true_of_low {s : State} (h : s.resetHigh = false) : setReset true s = resetState s := by
  simp only [setReset, h]

theorem setReset_false_resetState (s : State) : setReset false (resetState s) = { State.reset with cfg := s.cfg } :=
  rfl

theorem hostLoad_low {s : State} (h : s.resetHigh = false) (addr data : Byte) : hostLoad addr data s = s := by
  simp [hostLoad, h]

end Sys2Proof.Machine

namespace Sys2Proof.Proofs

open Sys2Proof.Machine

/-! The statements of 70_reset_and_hazards.md settled. -/

/-- Settles O54: only the level before the move and the parameters are looked at, so the rest of the state is lost. -/
theorem resetRestartsFromAnyState : Obligations.ResetRestartsFromAnyState := by
  intro s h
  rw [setReset_true_of_low h, setReset_false_resetState]
  exact ⟨rfl, rfl, rfl, rfl⟩

/-- Settles O55: while `reset` is high a load is one store, read back by the read-after-write law. -/
theorem loadsOnlyWhileResetIsHigh : Obligations.LoadsOnlyWhileResetIsHigh := by
  refine fun addr data s => ⟨fun h => hostLoad_low h addr data, fun h => ?_⟩
  rw [hostLoad_high h]
  exact ⟨fun x => memGet_memSet s.mem addr.toNat x data, rfl⟩

end Sys2Proof.Proofs
